-- ==== Sys2Proof/Word.lean ====
section
/-!
DEFINITION. The two widths of the COBS codec engine: a byte (00_scope.md R4, R5) and a register word (R4, R6).
Every value is unsigned (R6, 42_sizing.md R157); lengths, indices and addresses are plain `Nat` while they are computed.
-/

namespace Sys2Proof

/-- A byte: an unsigned 8-bit value (R5). -/
abbrev Byte := BitVec 8

/-- A register value: an unsigned 32-bit integer (REG_W = 32, R4, R6). -/
abbrev Word := BitVec 32

end Sys2Proof
end

