-- ==== Sys2Proof/Syntax.lean ====
section
/-!
DEFINITION. The commands of the block: one constructor per row of spec/opcode_table.json (30_encoding.md R71), with
the two presence bits every command word carries (R70, R72). Operands are registers, not fields of the command (R74).
-/

namespace Sys2Proof

/-- A command. `inPresent` and `outPresent` are IN_PRESENT (bit 2) and OUT_PRESENT (bit 3) of its word. -/
inductive Instr where
  /-- ENCODE, OP = 0b00 (40_encoder.md R100). -/
  | encode (inPresent outPresent : Bool)
  /-- DECODE, OP = 0b01 (41_decoder.md R120). -/
  | decode (inPresent outPresent : Bool)
  /-- ENC_BOUND, OP = 0b10 (42_sizing.md R150). It ignores both presence bits (R72). -/
  | encBound (inPresent outPresent : Bool)
  /-- DEC_BOUND, OP = 0b11 (42_sizing.md R153). It ignores both presence bits (R72). -/
  | decBound (inPresent outPresent : Bool)
  deriving DecidableEq, Repr

end Sys2Proof
end

