-- ==== Sys2Proof/WellFormed.lean ====
section
/-!
DEFINITION. What is well-formed. A term of `Instr` is always one of the 16 legal combinations of 30_encoding.md R73
(4 OP values, 2 x 2 presence bits), so its check holds of every term; the check that can fail is the one on a command
WORD: bits [31:4] must be 0. The checks on host statements (R77) stand with `HostStmt`.
-/

namespace Sys2Proof

/-- R73: every combination of OP and presence bits is legal. -/
def Instr.wellFormed : Instr → Bool
  | .encode _ _ => true
  | .decode _ _ => true
  | .encBound _ _ => true
  | .decBound _ _ => true

/-- R73: a command word is legal when its reserved bits [31:4] are 0. -/
def Word.legalCommand (w : Word) : Bool := w.extractLsb' 4 28 == 0#28

end Sys2Proof
end

