-- ==== Sys2Proof/Decode.lean ====
section
/-!
DEFINITION. The command word (30_encoding.md R70 to R73): its fields, the decoder, the encoder, and the disassembler's
spelling (R80). The decoder is total on 32-bit words and rejects by name.
-/

namespace Sys2Proof

/-- Why a word is no command. Raised by `decodeWord` only; safe (R73: a reserved encoding is refused). -/
inductive DecodeError where
  /-- A bit of [31:4] is set (R73). -/
  | reservedBits
  deriving DecidableEq, Repr

/-- OP, bits [1:0] (R70). -/
def cmdOp (w : Word) : BitVec 2 := w.extractLsb' 0 2

/-- IN_PRESENT, bit 2 (R70). -/
def cmdInPresent (w : Word) : Bool := w.getLsbD 2

/-- OUT_PRESENT, bit 3 (R70). -/
def cmdOutPresent (w : Word) : Bool := w.getLsbD 3

/-- The reserved field, bits [31:4] (R70). -/
def cmdReserved (w : Word) : BitVec 28 := w.extractLsb' 4 28

/-- The command that the OP field selects (R71). All four values are assigned. -/
def opcodeMap (op : BitVec 2) (inPresent outPresent : Bool) : Instr :=
  if op = 0#2 then .encode inPresent outPresent
  else if op = 1#2 then .decode inPresent outPresent
  else if op = 2#2 then .encBound inPresent outPresent
  else .decBound inPresent outPresent

/-- The command a word stands for (R70, R71, R73). -/
def decodeWord (w : Word) : Except DecodeError Instr :=
  if cmdReserved w = 0#28 then .ok (opcodeMap (cmdOp w) (cmdInPresent w) (cmdOutPresent w))
  else .error .reservedBits

/-- A command word from its fields (R70): OP in [1:0], IN_PRESENT in bit 2, OUT_PRESENT in bit 3, zeros above. -/
def cmdWord (op : BitVec 2) (inPresent outPresent : Bool) : Word :=
  (0#28 ++ BitVec.ofBool outPresent ++ BitVec.ofBool inPresent ++ op : BitVec 32)

/-- The word of a command (R70, R71). -/
def encode : Instr → Word
  | .encode ip op => cmdWord 0#2 ip op
  | .decode ip op => cmdWord 1#2 ip op
  | .encBound ip op => cmdWord 2#2 ip op
  | .decBound ip op => cmdWord 3#2 ip op

/-- The decoder on a row of spec/opcode_table.json: `w` holds the `nbits` bits of the command word, bit 0 the least
significant, and bits above them are 0. A command is one 32-bit word, so a number that needs more bits is none. -/
def decodeTableWord (nbits w : Nat) : Option Instr :=
  if w % 2 ^ nbits < 2 ^ 32 then (decodeWord (BitVec.ofNat 32 (w % 2 ^ nbits))).toOption else none

/-- The operands of a spelling: `in`, `out`, both joined with a comma, or none (R80). -/
def spellOperands : Bool → Bool → String
  | false, false => ""
  | true, false => " in"
  | false, true => " out"
  | true, true => " in,out"

/-- How a disassembler spells a command word: the OP mnemonic and the buffers that are present (R80). -/
def Instr.spell : Instr → String
  | .encode ip op => "ENCODE" ++ spellOperands ip op
  | .decode ip op => "DECODE" ++ spellOperands ip op
  | .encBound ip op => "ENC_BOUND" ++ spellOperands ip op
  | .decBound ip op => "DEC_BOUND" ++ spellOperands ip op

end Sys2Proof
end

