-- ==== Sys2Proof/Config.lean ====
section
/-!
DEFINITION. What an implementation fixes (00_scope.md R4) and the values the spec leaves open (`any`,
93_implementation_defined.md U3 to U5, V1 to V4). An open value is an opaque constant without a body: no proof can see
what it is, so a theorem holds whatever it is.
-/

namespace Sys2Proof

/-- The OPEN parameters of R4. N_ENGINES is the number of instances a state holds, so it is not repeated here. They
are fixed for a machine (10_state.md R20 calls them parameters, not state); a state carries them as plain data that no
step changes, so a statement about every state is one about every size of BUF. DESIGN CHOICE, log 5. -/
structure Params where
  /-- MEM_BYTES, the size of BUF in bytes; R4 asks for 1 <= MEM_BYTES <= 2^32. -/
  memBytes : Nat
  /-- REG_BASE, the base of the register window in the host's address space. No rule depends on it (R4). -/
  regBase : Nat
  deriving DecidableEq, Repr

/-- The range R4 gives MEM_BYTES. -/
abbrev Params.Ok (p : Params) : Prop := 1 ≤ p.memBytes ∧ p.memBytes ≤ 2 ^ 32

/-- MAX_CODE of R4, the largest code byte. -/
abbrev Config.maxCode : Nat := 255

/-- MAX_LITERALS of R4, the literal bytes of a full block. -/
abbrev Config.maxLiterals : Nat := 254

/-- MAX_ENC_IN of R4, the largest IN_LEN whose EncodedSizeBound fits in 32 bits. -/
abbrev Config.maxEncIn : Nat := 0xFEFEFEFE

/-- The largest value a 32-bit register holds. -/
abbrev Config.maxWord : Nat := 2 ^ 32 - 1

/-- The identity string of R1. -/
def Config.identity : String := "thetek42/empower#sub001 COBS codec, spec v7"

/-- The byte of BUF at an address that nothing has written since power-on: any value (R50, V3). Log 1. -/
opaque Config.powerOnByte : Nat → Byte

/-- The n-th draw of a byte of an output range that holds any value (U3, U4, U5, V4). Log 7. -/
opaque Config.freeByte : Nat → Byte

/-- The n-th draw of a RESULT that is any value (V1, and V2 for a read while BUSY). Log 7. -/
opaque Config.freeWord : Nat → Word

/-- The n-th draw of the ERR field that a read of STATUS returns while BUSY (V2). Log 7. -/
opaque Config.freeErr : Nat → BitVec 2

end Sys2Proof
end

