-- ==== Sys2Proof/Machine/State.lean ====
section
/-!
DEFINITION. The state of the machine as plain data (10_state.md R20 to R35, 20_memory.md R50, R62), its reset value
(70_reset_and_hazards.md R190), and the reasons a step can stop.

One instance of the block is a `Codec`. A `State` holds the instance in focus (`self`), the other N_ENGINES - 1
instances, the buffer memory they share, and what the model needs to be one deterministic machine: the accesses each
HOST has still to make, what its reads returned, and the schedule that says which agent moves next.
-/

namespace Sys2Proof.Machine

/-- The seven registers (10_state.md, section 2). -/
inductive Reg where
  | cmd | status | inBase | inLen | outBase | outCap | result
  deriving DecidableEq, Repr

/-- One access of the HOST. Register accesses name the width in bits and the offset in the window, so the accesses
that R28 refuses can be written down too. -/
inductive HostOp where
  /-- A read of the register window. -/
  | regRead (width offset : Nat)
  /-- A write to the register window. -/
  | regWrite (width offset : Nat) (v : Word)
  /-- A read of one byte of BUF (R58). -/
  | memRead (addr : Nat)
  /-- A write of one byte of BUF (R58). -/
  | memWrite (addr : Nat) (b : Byte)
  /-- `WAIT` (R78): read STATUS again and again until BUSY reads 0. -/
  | wait
  deriving DecidableEq, Repr

/-- What one read of the HOST returned. -/
inductive Seen where
  | reg (r : Reg) (v : Word)
  | mem (addr : Nat) (b : Byte)
  deriving DecidableEq, Repr

/-- The snapshot c that command issue takes (R30). `cmd` is the accepted command word: c's op, in_present and
out_present are its OP, IN_PRESENT and OUT_PRESENT fields (`cmdOp`, `cmdInPresent`, `cmdOutPresent`). -/
structure Snapshot where
  cmd : Word
  inBase : Word
  inLen : Word
  outBase : Word
  outCap : Word
  deriving DecidableEq, Repr

/-- The engine phase (R30, R31). -/
inductive Engine where
  /-- Waiting for a command. -/
  | idle
  /-- One command in flight. -/
  | busy (c : Snapshot)
  deriving DecidableEq, Repr

/-- One instance of the block with its HOST (R9, R20). -/
structure Codec where
  /-- CMD, offset 0x00 (R21). -/
  cmd : Word
  /-- STATUS, offset 0x04 (R22). -/
  status : Word
  /-- IN_BASE, offset 0x08 (R23). -/
  inBase : Word
  /-- IN_LEN, offset 0x0C (R24). -/
  inLen : Word
  /-- OUT_BASE, offset 0x10 (R25). -/
  outBase : Word
  /-- OUT_CAP, offset 0x14 (R26). -/
  outCap : Word
  /-- RESULT, offset 0x18 (R27). -/
  result : Word
  /-- The engine phase (R30). -/
  engine : Engine
  /-- The refused mark (R8, R20). -/
  refused : Bool
  /-- The model's own: the accesses this instance's HOST has still to make, in program order (R60 (1)). Log 2. -/
  host : List HostOp
  /-- The model's own: what this HOST's reads returned, newest first. Log 2. -/
  seen : List Seen
  deriving DecidableEq, Repr

/-- BUF (R50): the bytes something has written since power-on, addresses strictly rising. An address that is not
listed holds no written byte; what reading it gives is `byteAt`'s matter (Ops.lean). Log 1. -/
abbrev Memory := List Host.Cell

/-- Who moves next (R9). Log 3. -/
inductive Turn where
  /-- The HOST of the instance in focus makes its next access. -/
  | host
  /-- The ENGINE of the instance in focus takes its completion step, if it is BUSY. -/
  | engine
  /-- Reset reaches the instance in focus (R190, R191). -/
  | reset
  /-- No hardware event: the k-th of the other instances comes into focus. -/
  | switch (k : Nat)
  deriving DecidableEq, Repr

/-- The state of the machine. -/
structure State where
  /-- The instance in focus. -/
  self : Codec
  /-- The other N_ENGINES - 1 instances (R62). -/
  others : List Codec
  /-- The buffer memory all instances share (R50, R62). -/
  buf : Memory
  /-- MEM_BYTES and REG_BASE (R4); no step changes them. Log 5. -/
  params : Params
  /-- The model's own: the turns to come. When none is left, `State.nextTurn` says who moves. Log 3. -/
  schedule : List Turn
  /-- The model's own: how many free values have been drawn. Log 7. -/
  draws : Nat
  deriving DecidableEq, Repr

/-- Why the machine stops with a fault. -/
inductive Fault where
  /-- Raised by `State.reset1` (Reset.lean) when the abandoned snapshot's output range leaves BUF. Safe: the block has
  no fault of its own (R170) and issue refuses such a range (R52), so no state that meets `State.Inv` raises it. -/
  | outsideBuf
  deriving DecidableEq, Repr

/-- Why a step gives no meaning (R8). Each is safe: the machine stops where the spec defines nothing (R177). -/
inductive Refusal where
  /-- Raised by a refused arm of `exec` only: an instruction without a meaning yet. Safe. -/
  | notModelled (mnemonic : String)
  /-- Raised by a HOST write of CMD while BUSY (R194, W5). Safe. -/
  | cmdWhileBusy
  /-- Raised by a HOST write of CMD with a bit of [31:4] set (R73, W1). Safe. -/
  | reservedCmdBits
  /-- Raised by ENCODE and DECODE: the input range leaves BUF (R52, W3). Safe. -/
  | inputRange
  /-- Raised by ENCODE and DECODE: the output range leaves BUF (R52, W3). Safe. -/
  | outputRange
  /-- Raised by ENCODE and DECODE: the input and output ranges share a byte (R56, U6). Safe. -/
  | aliasing
  /-- Raised by ENCODE and DECODE: OUT_CAP is below the bound (R57, U1, U2). Safe. -/
  | capacity
  /-- Raised by ENCODE and DECODE: the protected range meets that of another BUSY instance (R62, U7). Safe. -/
  | sharedBuffer
  /-- Raised by ENC_BOUND: the bound does not fit in 32 bits (R152, W4). Safe. -/
  | boundOverflow
  /-- Raised by a HOST register access of another width, unaligned, or at 0x1C or above (R28, W2). Safe. -/
  | registerAccess
  /-- Raised by a HOST write of IN_BASE, IN_LEN, OUT_BASE or OUT_CAP while BUSY (R194, W5). Safe. -/
  | operandWriteWhileBusy
  /-- Raised by a HOST byte access at MEM_BYTES or above (R58, W3). Safe. -/
  | hostAddress
  /-- Raised by a HOST byte access to the protected range of a BUSY instance (R59, R62, W6). Safe. -/
  | protectedByte
  deriving DecidableEq, Repr

/-- One instance after power-on and reset (R190): every register 0, the engine IDLE, not refused, its HOST with
nothing to do. -/
def Codec.afterReset : Codec where
  cmd := 0
  status := 0
  inBase := 0
  inLen := 0
  outBase := 0
  outCap := 0
  result := 0
  engine := .idle
  refused := false
  host := []
  seen := []

/-- The machine right after reset (R190): one instance (DESIGN CHOICE, log 6), nothing written to BUF since power-on
(log 1), MEM_BYTES = 0x400 and REG_BASE = 0 (DESIGN CHOICE, log 5), no turn scheduled and nothing drawn. -/
def State.reset : State where
  self := Codec.afterReset
  others := []
  buf := []
  params := ⟨0x400, 0⟩
  schedule := []
  draws := 0

end Sys2Proof.Machine
end

