-- ==== Sys2Proof/Machine/Flags.lean ====
section
/-!
DEFINITION. The STATUS word (30_encoding.md R75, R76; 10_state.md R22, R32): its fields, the ERR codes, and the three
ways it is written or read. The block has no other flag and no condition code (R32).
-/

namespace Sys2Proof.Machine

/-- The status of a completed command (R76, R171). -/
inductive Err where
  | ok
  | invalidArgument
  | zeroInEncodedData
  | truncatedEncodedData
  deriving DecidableEq, Repr

/-- The ERR code of a status (R76). -/
def Err.code : Err → BitVec 2
  | .ok => 0#2
  | .invalidArgument => 1#2
  | .zeroInEncodedData => 2#2
  | .truncatedEncodedData => 3#2

/-- STATUS.ERR, bits [1:0] (R75). -/
def statusErr (v : Word) : BitVec 2 := v.extractLsb' 0 2

/-- STATUS.BUSY, bit 4 (R75). -/
def statusBusy (v : Word) : Bool := v.getLsbD 4

/-- The hardwired bits [3:2] and [31:5] of STATUS read 0 (R22, R29). -/
def statusHardwired (v : Word) : Bool := v &&& 0xFFFFFFEC#32 == 0#32

/-- zext_32(err) with BUSY = 0: what the completion step leaves in STATUS (R82). -/
def statusDone (e : BitVec 2) : Word := e.setWidth 32

/-- x[STATUS].BUSY <- 1 (R81). -/
def statusStart (v : Word) : Word := v ||| 0x10#32

/-- What a read of STATUS returns while BUSY: BUSY = 1 with ERR as the given value (R22, R194). -/
def statusWhileBusy (e : BitVec 2) : Word := e.setWidth 32 ||| 0x10#32

end Sys2Proof.Machine
end

