-- ==== Sys2Proof/Machine/Ops.lean ====
section
/-!
DEFINITION. The named operations over the buffer memory, the registers, the free values and the instance in focus, and
the one operation every command ends with: the atomic commit of its completion step (30_encoding.md R82). The block
takes no exception and returns from none (60_exceptions.md R170, R178), so nothing of that kind stands here.
-/

namespace Sys2Proof.Machine

/-! ## The buffer memory (20_memory.md R50, R51, R53) -/

/-- The canonical form of BUF: addresses strictly rising. Equal memories are equal lists. -/
abbrev Memory.Sorted (m : Memory) : Prop := (m.map Prod.fst).Pairwise (· < ·)

/-- The canonical form of BUF, and every listed byte is one of its MEM_BYTES bytes (R50). -/
abbrev Memory.wf (memBytes : Nat) (m : Memory) : Prop := Memory.Sorted m ∧ ∀ c ∈ m, c.1 < memBytes

/-- The byte something has written at `a` since power-on, if anything has. -/
def Memory.written : Memory → Nat → Option Byte
  | [], _ => none
  | (x, b) :: m, a => if x = a then some b else Memory.written m a

/-- MemRead(a, 1) (R7): the byte at `a`. A byte nothing has written holds any value (R50, V3). Log 1. -/
def Memory.byteAt (m : Memory) (a : Nat) : Byte := (Memory.written m a).getD (Config.powerOnByte a)

/-- MemWrite(a, 1, v) (R7), in the canonical form. -/
def Memory.write : Memory → Nat → Byte → Memory
  | [], a, v => [(a, v)]
  | (x, b) :: m, a, v =>
    if a < x then (a, v) :: (x, b) :: m
    else if x = a then (x, v) :: m
    else (x, b) :: Memory.write m a v

/-- The byte sequence [BUF[base], ..., BUF[base+len-1]] (R51). -/
def Memory.bytesAt (m : Memory) (base : Nat) : Nat → List Byte
  | 0 => []
  | len + 1 => Memory.byteAt m base :: Memory.bytesAt m (base + 1) len

/-- Element k of the list goes to address base + k (R51). -/
def Memory.writeBytes (m : Memory) (base : Nat) : List Byte → Memory
  | [] => m
  | b :: bs => Memory.writeBytes (Memory.write m base b) (base + 1) bs

/-- The byte of BUF at `a`. -/
def State.byteAt (s : State) (a : Nat) : Byte := Memory.byteAt s.buf a

/-- The bytes of BUF from `base` on (R51). -/
def State.bytesAt (s : State) (base len : Nat) : List Byte := Memory.bytesAt s.buf base len

/-! ## The registers (10_state.md R21 to R29) -/

/-- The offset of a register in the window (10_state.md, section 2). -/
def Reg.offset : Reg → Nat
  | .cmd => 0x00
  | .status => 0x04
  | .inBase => 0x08
  | .inLen => 0x0C
  | .outBase => 0x10
  | .outCap => 0x14
  | .result => 0x18

/-- The register an access of the given width and offset reaches: aligned 32-bit accesses at 0x00 to 0x18 only, and
nothing otherwise (R28). -/
def regAt (width offset : Nat) : Option Reg :=
  if width = 32 then
    match offset with
    | 0x00 => some .cmd
    | 0x04 => some .status
    | 0x08 => some .inBase
    | 0x0C => some .inLen
    | 0x10 => some .outBase
    | 0x14 => some .outCap
    | 0x18 => some .result
    | _ => none
  else none

/-- Where a register stands in the host's address space (R63). No rule depends on it (R4). -/
def Params.regAddress (p : Params) (r : Reg) : Nat := p.regBase + r.offset

/-- The register's stored value. -/
def Codec.get (x : Codec) : Reg → Word
  | .cmd => x.cmd
  | .status => x.status
  | .inBase => x.inBase
  | .inLen => x.inLen
  | .outBase => x.outBase
  | .outCap => x.outCap
  | .result => x.result

/-- A plain store into an operand register (R23 to R26). CMD, STATUS and RESULT are not written this way: CMD by
command issue (R81), STATUS and RESULT by the ENGINE (R22, R27). -/
def Codec.setOperand (x : Codec) (r : Reg) (v : Word) : Codec :=
  match r with
  | .inBase => { x with inBase := v }
  | .inLen => { x with inLen := v }
  | .outBase => { x with outBase := v }
  | .outCap => { x with outCap := v }
  | .cmd | .status | .result => x

/-- Whether a command is in flight. -/
def Engine.isBusy : Engine → Bool
  | .idle => false
  | .busy _ => true

/-! ## Free values (`any`) -/

/-- The bytes an `outfx` writes, from the n-th draw on, and the number of the next draw: `none` stands for `any`, "an
unconstrained draw per byte" (R82). Log 7. -/
def drawBytes : Nat → List (Option Byte) → List Byte × Nat
  | n, [] => ([], n)
  | n, some b :: fx => (b :: (drawBytes n fx).1, (drawBytes n fx).2)
  | n, none :: fx => (Config.freeByte n :: (drawBytes (n + 1) fx).1, (drawBytes (n + 1) fx).2)

/-- The word a `res` stores, and the number of the next draw: `none` stands for `any` (R82). Log 7. -/
def drawWord (n : Nat) : Option Word → Word × Nat
  | some v => (v, n)
  | none => (Config.freeWord n, n + 1)

/-! ## The completion step's commit (30_encoding.md R82) -/

/-- What an operation gives the completion step: (err, res, outfx). `res = none` is `any`. Element k of `outfx` is the
byte for index k of the output range, `none` for `any`; indices past its end are not written. -/
structure OpResult where
  err : Err
  res : Option Word
  outfx : List (Option Byte)
  deriving DecidableEq, Repr

/-- The atomic transition of R82: every output byte, STATUS, RESULT and the phase together. -/
def State.complete (s : State) (c : Snapshot) (r : OpResult) : State :=
  { s with
    buf := Memory.writeBytes s.buf c.outBase.toNat (drawBytes s.draws r.outfx).1
    draws := (drawWord (drawBytes s.draws r.outfx).2 r.res).2
    self := { s.self with
      status := statusDone r.err.code
      result := (drawWord (drawBytes s.draws r.outfx).2 r.res).1
      engine := .idle } }

/-- The end of command issue (R81): CMD, the snapshot and STATUS.BUSY. An accepted issue writes no buffer byte. -/
def State.start (s : State) (c : Snapshot) : State :=
  { s with self := { s.self with cmd := c.cmd, status := statusStart s.self.status, engine := .busy c } }

/-! ## The refused mark, the HOST's program, the focus -/

/-- R8: a refusal sets the mark; no operation of the model clears it. -/
def State.markRefused (s : State) : State := { s with self := { s.self with refused := true } }

/-- The HOST has made its next access. -/
def State.popHost (s : State) : State := { s with self := { s.self with host := s.self.host.tail } }

/-- The HOST has seen a value. -/
def State.see (s : State) (v : Seen) : State := { s with self := { s.self with seen := v :: s.self.seen } }

/-- The next turn is used up. -/
def State.popTurn (s : State) : State := { s with schedule := s.schedule.tail }

/-- The k-th of the other instances changes places with the one in focus. Instances have no identifiers (R183), so
only the roles `self` and `others` change. Without a k-th other instance nothing happens. -/
def State.focus (s : State) (k : Nat) : State :=
  match s.others[k]? with
  | some x => { s with self := x, others := s.others.set k s.self }
  | none => s

/-- Whether an instance still has something to do: a command in flight, or an access of its HOST. -/
def Codec.hasWork (x : Codec) : Bool := x.engine.isBusy || !x.host.isEmpty

/-- Who moves next. The schedule says so while it lasts. After that the ENGINE in focus moves if it is BUSY (weak
fairness, R200), else its HOST if it has an access to make, else the first other instance with work comes into focus;
when nobody has anything to do the HOST in focus stays idle. Log 3. -/
def State.nextTurn (s : State) : Turn :=
  match s.schedule with
  | t :: _ => t
  | [] =>
    if s.self.engine.isBusy then .engine
    else if !s.self.host.isEmpty then .host
    else match s.others.findIdx? Codec.hasWork with
      | some k => .switch k
      | none => .host

end Sys2Proof.Machine
end

