-- ==== Sys2Proof/Machine/Bounds.lean ====
section
/-!
DEFINITION. The two sizing functions (42_sizing.md R151, R154), over the unbounded non-negative integers (R157).
-/

namespace Sys2Proof.Machine

/-- EncodedSizeBound(n) (R151). -/
def encodedSizeBound (n : Nat) : Nat := if n = 0 then 1 else n + (n + 253) / 254

/-- DecodedSizeBound(m) (R154). -/
def decodedSizeBound (m : Nat) : Nat := if m = 0 then 0 else m - 1

end Sys2Proof.Machine
end

