-- ==== Sys2Proof/Machine/Operands.lean ====
section
/-!
DEFINITION. The operands of a command: the snapshot of the operand registers (10_state.md R30, 30_encoding.md R74),
the ranges they name (20_memory.md R51, R52, R55, R56), the issue checks (30_encoding.md R81), and the two steps every
command takes, its issue (R81) and its completion (R82).
-/

namespace Sys2Proof.Machine

/-! ## Ranges -/

/-- The addresses [base, base + len), over the integers. -/
structure Range where
  base : Nat
  len : Nat
  deriving DecidableEq, Repr

/-- R52: the range lies in BUF, with no wrap; a zero-length range is legal at any base up to MEM_BYTES. -/
def Range.legal (r : Range) (memBytes : Nat) : Bool := r.base + r.len ≤ memBytes

/-- Whether an address is in the range. -/
def Range.has (r : Range) (a : Nat) : Bool := r.base ≤ a && a < r.base + r.len

/-- R56: the two ranges share a byte. -/
def Range.overlaps (r q : Range) : Bool :=
  0 < r.len && 0 < q.len && r.base < q.base + q.len && q.base < r.base + r.len

/-! ## The snapshot -/

/-- The snapshot of the command word `w` and the operand registers (R30), all read whole (R74). -/
def Codec.snapshot (x : Codec) (w : Word) : Snapshot :=
  { cmd := w, inBase := x.inBase, inLen := x.inLen, outBase := x.outBase, outCap := x.outCap }

/-- The input range [IN_BASE, IN_BASE + IN_LEN) (R51). -/
def Snapshot.input (c : Snapshot) : Range := ⟨c.inBase.toNat, c.inLen.toNat⟩

/-- The output range [OUT_BASE, OUT_BASE + OUT_CAP) (R51). -/
def Snapshot.output (c : Snapshot) : Range := ⟨c.outBase.toNat, c.outCap.toNat⟩

/-- Whether a command uses its buffers: ENCODE or DECODE with both of them present (R55, R74). -/
def Instr.usesBuffers : Instr → Bool
  | .encode ip op => ip && op
  | .decode ip op => ip && op
  | .encBound _ _ => false
  | .decBound _ _ => false

/-- Whether the snapshot's command uses its buffers. -/
def Snapshot.usesBuffers (c : Snapshot) : Bool :=
  match decodeWord c.cmd with
  | .ok i => Instr.usesBuffers i
  | .error _ => false

/-- The protected range of a command in flight (R55). -/
def Snapshot.protectedRanges (c : Snapshot) : List Range :=
  if c.usesBuffers then [c.input, c.output] else []

/-- The bytes an instance's command in flight owns; none when it is IDLE (R55). -/
def Engine.protectedRanges : Engine → List Range
  | .idle => []
  | .busy c => c.protectedRanges

/-- Whether a byte belongs to the protected range of the instance's command in flight (R59, R62). -/
def Codec.protects (x : Codec) (a : Nat) : Bool := x.engine.protectedRanges.any (·.has a)

/-- Whether two protected ranges share a byte (R62). -/
def rangesMeet (rs qs : List Range) : Bool := rs.any fun r => qs.any r.overlaps

/-! ## The issue checks (30_encoding.md R81) -/

/-- The checks of ENCODE and DECODE with both buffers present: legal ranges (R52), no aliasing (R56), and a capacity
of at least the bound (R57). Any failing check refuses; their order does not matter (R81). -/
def bufferRefusal (memBytes : Nat) (c : Snapshot) (bound : Nat) : Option Refusal :=
  if !c.input.legal memBytes then some .inputRange
  else if !c.output.legal memBytes then some .outputRange
  else if c.input.overlaps c.output then some .aliasing
  else if c.outCap.toNat < bound then some .capacity
  else none

/-- The checks of one command on its own snapshot (R81). -/
def issueRefusal (memBytes : Nat) (i : Instr) (c : Snapshot) : Option Refusal :=
  match i with
  | .encode ip op =>
    if ip && op then bufferRefusal memBytes c (encodedSizeBound c.inLen.toNat) else none
  | .decode ip op =>
    if ip && op then bufferRefusal memBytes c (decodedSizeBound c.inLen.toNat) else none
  | .encBound _ _ => if encodedSizeBound c.inLen.toNat > Config.maxWord then some .boundOverflow else none
  | .decBound _ _ => none

/-- The check against the other instances: the protected range meets that of a BUSY one (R62). -/
def sharesBuffer (c : Snapshot) (others : List Codec) : Bool :=
  others.any fun x => rangesMeet c.protectedRanges x.engine.protectedRanges

/-! ## Issue and completion -/

/-- The issue of a legal command word's command when the engine is IDLE (R81): refused by a failing check, otherwise
CMD, the snapshot and BUSY. -/
def issue (i : Instr) (s : State) : Host.Outcome State Fault Refusal :=
  match issueRefusal s.params.memBytes i (s.self.snapshot (encode i)) with
  | some r => .refused r
  | none =>
    if sharesBuffer (s.self.snapshot (encode i)) s.others then .refused .sharedBuffer
    else .next (s.start (s.self.snapshot (encode i)))

/-- A command in its two steps: issue when the engine is IDLE (R81), completion when it is BUSY (R82), with `op` the
operation's (err, res, outfx) on the snapshot. A snapshot that would fail its own issue checks is refused here too:
no state that meets `State.Inv` holds one ("The issue checks of R81 have already passed", R106). Log 8. -/
def runCommand (i : Instr) (op : Snapshot → OpResult) (s : State) : Host.Outcome State Fault Refusal :=
  match s.self.engine with
  | .idle => issue i s
  | .busy c =>
    match issueRefusal s.params.memBytes i c with
    | some r => .refused r
    | none => .next (s.complete c (op c))

/-- The operation of ENCODE or DECODE with an absent buffer: InvalidArgument, RESULT any, no byte written (R101,
R121, R172, R176). -/
def invalidArgument : OpResult := ⟨.invalidArgument, none, []⟩

/-- The outfx of a whole output range that starts with the bytes `bs` and holds any value after them (R106, R130,
R131). -/
def outputFx (c : Snapshot) (bs : List Byte) : List (Option Byte) :=
  bs.map some ++ List.replicate (c.outCap.toNat - bs.length) none

end Sys2Proof.Machine
end

