-- ==== Sys2Proof/Machine/Decoder.lean ====
section
/-!
DEFINITION. DECODE (41_decoder.md): the algorithm `cobs_decode` (R123) and the command (R120, R121, R130, R131). The
input from position i on is carried as the list of the bytes still to read.
-/

namespace Sys2Proof.Machine

/-- The two data errors (R123). -/
inductive DataErr where
  | zero
  | truncated
  deriving DecidableEq, Repr

/-- The STATUS error of a data error (R173, R174). -/
def DataErr.err : DataErr → Err
  | .zero => .zeroInEncodedData
  | .truncated => .truncatedEncodedData

/-- Ok(z), or Err(e, p) with the partial output p (R123). -/
inductive DecodeResult where
  | ok (z : List Byte)
  | err (e : DataErr) (p : List Byte)
  deriving DecidableEq, Repr

/-- What step 2 of R123 gives: the output and the bytes after the block's literals, or an error. -/
inductive BlockResult where
  | ok (z rest : List Byte)
  | err (e : DataErr) (p : List Byte)
  deriving DecidableEq, Repr

/-- Step 2 of R123 (IN_BLOCK, R129): n literal positions in increasing order, each tested first for the end of the
input and then for zero (R125). -/
def copyLiterals : Nat → List Byte → List Byte → BlockResult
  | 0, rest, z => .ok z rest
  | _ + 1, [], z => .err .truncated z
  | n + 1, b :: rest, z => if b = 0#8 then .err .zero z else copyLiterals n rest (z ++ [b])

/-- Step 5 of R123: the implied zero of a non-final block, nothing after code 255 (R127). -/
def impliedZero (code : Byte) (z : List Byte) : List Byte :=
  if code.toNat < Config.maxCode then z ++ [0#8] else z

/-- The loop of R123 (BLOCK_BOUNDARY, R129). Each iteration reads at least the code byte, so as many iterations as the
input has bytes are enough. -/
def decodeBlocks : Nat → List Byte → List Byte → DecodeResult
  | 0, _, z => .ok z
  | _ + 1, [], z => .ok z
  | fuel + 1, code :: rest, z =>
    if code = 0#8 then .err .zero z
    else match copyLiterals (code.toNat - 1) rest z with
      | .err e p => .err e p
      | .ok z' [] => .ok z'
      | .ok z' (b :: bs) => decodeBlocks fuel (b :: bs) (impliedZero code z')

/-- cobs_decode(y) (R123). -/
def cobsDecode (y : List Byte) : DecodeResult := decodeBlocks y.length y []

/-- DECODE's (err, res, outfx) with both buffers present (R130, R131). -/
def decodeOp (s : State) (c : Snapshot) : OpResult :=
  match cobsDecode (s.bytesAt c.inBase.toNat c.inLen.toNat) with
  | .ok z => ⟨.ok, some (BitVec.ofNat 32 z.length), outputFx c z⟩
  | .err e _ => ⟨e.err, none, outputFx c []⟩

/-- DECODE (R120): InvalidArgument when a buffer is absent (R121), else R130 or R131. -/
def execDecode (inPresent outPresent : Bool) (s : State) : Host.Outcome State Fault Refusal :=
  runCommand (.decode inPresent outPresent)
    (fun c => if inPresent && outPresent then decodeOp s c else invalidArgument) s

end Sys2Proof.Machine
end

