-- ==== Sys2Proof/Machine/Encoder.lean ====
section
/-!
DEFINITION. ENCODE (40_encoder.md): the algorithm `cobs_encode` (R103, R104) and the command (R100, R101, R106).
-/

namespace Sys2Proof.Machine

/-- The algorithm's state (R33, R103). `out` holds the cells 0 to cursor - 1 of the output, so `cursor` is its length;
the cell at `blockStart` holds 0 until the current block is closed. -/
structure EncState where
  out : List Byte
  blockStart : Nat
  deriving DecidableEq, Repr

/-- "next free write index" (R33). -/
def EncState.cursor (e : EncState) : Nat := e.out.length

/-- blockStart = 0, cursor = 1 (R103). -/
def EncState.start : EncState := ⟨[0#8], 0⟩

/-- `out[blockStart] <- cursor - blockStart` (R103). At 254 literals this is the code 0xFF. -/
def EncState.closeBlock (e : EncState) : EncState :=
  { e with out := e.out.set e.blockStart (BitVec.ofNat 8 (e.cursor - e.blockStart)) }

/-- `blockStart <- cursor; cursor <- cursor + 1` (R103). -/
def EncState.openBlock (e : EncState) : EncState := { out := e.out ++ [0#8], blockStart := e.cursor }

/-- `out[cursor] <- b; cursor <- cursor + 1` (R103). -/
def EncState.copy (e : EncState) (b : Byte) : EncState := { e with out := e.out ++ [b] }

/-- The 254-literal test, made first for each input byte (R104, 90_conflicts.md C1). -/
def EncState.test254 (e : EncState) : EncState :=
  if e.cursor - e.blockStart - 1 = Config.maxLiterals then e.closeBlock.openBlock else e

/-- One iteration of the loop (R103). -/
def EncState.byte (e : EncState) (b : Byte) : EncState :=
  if b = 0#8 then e.test254.closeBlock.openBlock else e.test254.copy b

/-- cobs_encode(x) (R103). -/
def cobsEncode (x : List Byte) : List Byte := (x.foldl EncState.byte EncState.start).closeBlock.out

/-- ENCODE's (err, res, outfx) with both buffers present (R106). -/
def encodeOp (s : State) (c : Snapshot) : OpResult :=
  let y := cobsEncode (s.bytesAt c.inBase.toNat c.inLen.toNat)
  ⟨.ok, some (BitVec.ofNat 32 y.length), outputFx c y⟩

/-- ENCODE (R100): InvalidArgument when a buffer is absent (R101), else R106. -/
def execEncode (inPresent outPresent : Bool) (s : State) : Host.Outcome State Fault Refusal :=
  runCommand (.encode inPresent outPresent)
    (fun c => if inPresent && outPresent then encodeOp s c else invalidArgument) s

end Sys2Proof.Machine
end

