-- ==== Sys2Proof/Machine/Sizing.lean ====
section
/-!
DEFINITION. ENC_BOUND and DEC_BOUND (42_sizing.md R150, R153). They read IN_LEN only, access no memory, and ignore the
presence bits (R72).
-/

namespace Sys2Proof.Machine

/-- A sizing command's (err, res, outfx): OK, the bound, nothing written (R150, R153). -/
def sizingOp (bound : Nat) : OpResult := ⟨.ok, some (BitVec.ofNat 32 bound), []⟩

/-- ENC_BOUND (R150). -/
def execEncBound (inPresent outPresent : Bool) (s : State) : Host.Outcome State Fault Refusal :=
  runCommand (.encBound inPresent outPresent) (fun c => sizingOp (encodedSizeBound c.inLen.toNat)) s

/-- DEC_BOUND (R153). -/
def execDecBound (inPresent outPresent : Bool) (s : State) : Host.Outcome State Fault Refusal :=
  runCommand (.decBound inPresent outPresent) (fun c => sizingOp (decodedSizeBound c.inLen.toNat)) s

end Sys2Proof.Machine
end

