-- ==== Sys2Proof/Machine/Dispatch.lean ====
section
/-!
DEFINITION. The meaning of every command (30_encoding.md R71): one arm per constructor of `Instr`.
-/

namespace Sys2Proof.Machine

/-- The step of a command: its issue when the engine is IDLE (R81), its completion when it is BUSY (R82). -/
def exec (i : Instr) (s : State) : Host.Outcome State Fault Refusal :=
  match i with
  | .encode ip op => Sys2Proof.Machine.execEncode ip op s
  | .decode ip op => Sys2Proof.Machine.execDecode ip op s
  | .encBound ip op => Sys2Proof.Machine.execEncBound ip op s
  | .decBound ip op => Sys2Proof.Machine.execDecBound ip op s

end Sys2Proof.Machine
end

