-- ==== Sys2Proof/Machine/EngineStep.lean ====
section
/-!
DEFINITION. The ENGINE's step (00_scope.md R9, 30_encoding.md R82) and how a command word comes before it. The block
fetches no instructions (10_state.md R31): the command it runs is the one in its snapshot.
-/

namespace Sys2Proof.Machine

/-- The ENGINE's step: the command in the snapshot is decoded and completed. It is enabled only when BUSY; otherwise
nothing happens (R9, R82). -/
def engineStep (s : State) : Host.Outcome State Fault Refusal :=
  match s.self.engine with
  | .idle => .next s
  | .busy c =>
    match decodeWord c.cmd with
    | .ok i => exec i s
    | .error .reservedBits => .refused .reservedCmdBits

/-- The state in which the command word `w` is in flight: CMD holds it, the snapshot is taken, BUSY is 1 (R81, without
its checks), and the ENGINE moves next. Log 8. -/
def State.inFlight (s : State) (w : Word) : State :=
  { s.start (s.self.snapshot w) with
    schedule := match s.schedule with
      | [] => []
      | t :: ts => .engine :: t :: ts }

end Sys2Proof.Machine
end

