-- ==== Sys2Proof/Machine/HostAccess.lean ====
section
/-!
DEFINITION. What the HOST's accesses do (10_state.md R21 to R29, 20_memory.md R58, R59, R62, 70_reset_and_hazards.md
R194, 30_encoding.md R78, R81).
-/

namespace Sys2Proof.Machine

/-- The value a read of a register returns, and the number of the next draw. While BUSY, STATUS reads BUSY = 1 with
ERR any value and RESULT reads any value (R22, R27, R194); otherwise, and for the other registers always, the stored
value. -/
def State.regValue (s : State) (r : Reg) : Word × Nat :=
  if s.self.engine.isBusy then
    match r with
    | .status => (statusWhileBusy (Config.freeErr s.draws), s.draws + 1)
    | .result => (Config.freeWord s.draws, s.draws + 1)
    | .cmd | .inBase | .inLen | .outBase | .outCap => (s.self.get r, s.draws)
  else (s.self.get r, s.draws)

/-- A register read (R28): the HOST sees the value; the block does not change. -/
def State.readReg (s : State) (r : Reg) : State :=
  { s.see (.reg r (s.regValue r).1) with draws := (s.regValue r).2 }

/-- The HOST writes CMD: command issue (R81). -/
def writeCmd (v : Word) (s : State) : Host.Outcome State Fault Refusal :=
  if s.self.engine.isBusy then .refused .cmdWhileBusy
  else match decodeWord v with
    | .ok i => exec i s
    | .error .reservedBits => .refused .reservedCmdBits

/-- A register write: CMD issues a command (R21), STATUS and RESULT ignore it (R22, R27, R29), an operand register
takes the value unless BUSY (R23 to R26, R194). -/
def writeReg (r : Reg) (v : Word) (s : State) : Host.Outcome State Fault Refusal :=
  match r with
  | .cmd => writeCmd v s
  | .status | .result => .next s
  | .inBase | .inLen | .outBase | .outCap =>
    if s.self.engine.isBusy then .refused .operandWriteWhileBusy
    else .next { s with self := s.self.setOperand r v }

/-- Why a HOST access to the byte at `a` is refused: past BUF (R58), or in the protected range of a BUSY instance,
this one (R59) or another (R62). -/
def State.byteRefusal (s : State) (a : Nat) : Option Refusal :=
  if s.params.memBytes ≤ a then some .hostAddress
  else if s.self.protects a || s.others.any (·.protects a) then some .protectedByte
  else none

/-- One access of the HOST, `WAIT` apart. -/
def access (op : HostOp) (s : State) : Host.Outcome State Fault Refusal :=
  match op with
  | .regRead width offset =>
    match regAt width offset with
    | some r => .next (s.readReg r)
    | none => .refused .registerAccess
  | .regWrite width offset v =>
    match regAt width offset with
    | some r => writeReg r v s
    | none => .refused .registerAccess
  | .memRead a =>
    match s.byteRefusal a with
    | some r => .refused r
    | none => .next (s.see (.mem a (s.byteAt a)))
  | .memWrite a b =>
    match s.byteRefusal a with
    | some r => .refused r
    | none => .next { s with buf := Memory.write s.buf a b }
  | .wait => .next (s.readReg .status)

/-- The HOST's step: its next access. `WAIT` reads STATUS and stays the next access while the BUSY bit reads 1
(R78). A HOST with nothing left does nothing (R201). -/
def hostStep (s : State) : Host.Outcome State Fault Refusal :=
  match s.self.host with
  | [] => .next s
  | .wait :: _ =>
    if statusBusy (s.regValue .status).1 then access .wait s else access .wait s.popHost
  | op :: _ => access op s.popHost

end Sys2Proof.Machine
end

