-- ==== Sys2Proof/Machine/Reset.lean ====
section
/-!
DEFINITION. Reset (70_reset_and_hazards.md R190, R191), as an event that reaches the instance in focus (log 10).
-/

namespace Sys2Proof.Machine

/-- R190 on one instance: the registers and the phase. The refused mark is not changed by reset, and the HOST is no
part of the block. -/
def Codec.resetRegs (x : Codec) : Codec :=
  { Codec.afterReset with refused := x.refused, host := x.host, seen := x.seen }

/-- The output range of an abandoned command, whose bytes become any value; of any other command no byte changes
(R191). -/
def Engine.abandoned : Engine → Range
  | .idle => ⟨0, 0⟩
  | .busy c => if c.usesBuffers then c.output else ⟨0, 0⟩

/-- Reset of the instance in focus: the command in flight is abandoned and never completes, each byte of its output
range becomes any value (R191), and R190 applies. BUF keeps every other byte. -/
def State.reset1 (s : State) : Host.Outcome State Fault Refusal :=
  if s.self.engine.abandoned.legal s.params.memBytes then
    .next { s with
      self := s.self.resetRegs
      buf := Memory.writeBytes s.buf s.self.engine.abandoned.base
        (drawBytes s.draws (List.replicate s.self.engine.abandoned.len none)).1
      draws := (drawBytes s.draws (List.replicate s.self.engine.abandoned.len none)).2 }
  else .fault .outsideBuf

end Sys2Proof.Machine
end

