-- ==== Sys2Proof/Machine/Agents.lean ====
section
/-!
DEFINITION. One turn of one agent (00_scope.md R9), and what a refusal leaves behind (R8).
-/

namespace Sys2Proof.Machine

/-- One turn. -/
def takeTurn (t : Turn) (s : State) : Host.Outcome State Fault Refusal :=
  match t with
  | .host => hostStep s
  | .engine => engineStep s
  | .reset => s.reset1
  | .switch k => .next (s.focus k)

/-- The state a refused turn leaves (R8): the refused mark of the instance in focus is set and nothing else of the
block changes ("A write that is refused changes nothing", R21). The turn, and the access if it was one, is used up. -/
def State.refuse (s : State) : State :=
  match s.nextTurn with
  | .host => s.popTurn.popHost.markRefused
  | .engine | .reset | .switch _ => s.popTurn.markRefused

/-- The spec's own transition out of an outcome (R8): a next state is taken, a refusal marks the state. A fault stays
where it is. -/
def State.settle (s : State) : Host.Outcome State Fault Refusal → State
  | .next t => t
  | .fault _ => s
  | .refused _ => s.refuse

end Sys2Proof.Machine
end

