-- ==== Sys2Proof/Machine/Step.lean ====
section
/-!
DEFINITION. One step of the machine, and how the host places a command word before it.
-/

namespace Sys2Proof.Machine

/-- One step: the agent whose turn it is moves (00_scope.md R9). -/
def step (s : State) : Host.Outcome State Fault Refusal := takeTurn s.nextTurn s.popTurn

/-- The spec's transition of R8, with the refused mark as state. -/
def State.advance (s : State) : State := s.settle (step s)

/-- The state in which the command word whose low `nbits` bits are `w` is in flight, so that the next step runs it. -/
def State.withFetchWord (s : State) (nbits w : Nat) : State := s.inFlight (BitVec.ofNat 32 (w % 2 ^ nbits))

end Sys2Proof.Machine
end

