-- ==== Sys2Proof/Machine/HostProgram.lean ====
section
/-!
DEFINITION. Host programs (30_encoding.md R78, R79, R77): statements, the accesses they stand for, and the transcriber
that reads them from text and refuses other text by name and line.
-/

namespace Sys2Proof.Machine

/-- A host statement (R78) or pseudo-instruction (R79), with its immediates as written. -/
inductive HostStmt where
  | wr (r : Reg) (imm : Nat)
  | rd (r : Reg)
  | memw (addr : Nat) (bytes : List Nat)
  | memr (addr len : Nat)
  | wait
  | encode (ib il ob oc : Nat)
  | decode (ib il ob oc : Nat)
  | encBound (n : Nat)
  | decBound (m : Nat)
  deriving DecidableEq, Repr

/-- An immediate is 0 to 2^32 - 1 (R77). -/
def immOk (n : Nat) : Bool := n ≤ Config.maxWord

/-- What R77 and R78 ask of a statement: immediates in range, and MEMW with at least one byte, each a byte (R5). -/
def HostStmt.wellFormed : HostStmt → Bool
  | .wr _ imm => immOk imm
  | .rd _ => true
  | .memw addr bs => immOk addr && !bs.isEmpty && bs.all (· < 256)
  | .memr addr len => immOk addr && immOk len
  | .wait => true
  | .encode ib il ob oc => immOk ib && immOk il && immOk ob && immOk oc
  | .decode ib il ob oc => immOk ib && immOk il && immOk ob && immOk oc
  | .encBound n => immOk n
  | .decBound m => immOk m

/-- The aligned 32-bit write of R78. -/
def wrOp (r : Reg) (imm : Nat) : HostOp := .regWrite 32 r.offset (BitVec.ofNat 32 imm)

/-- Byte writes at ascending addresses, in order (R78). -/
def memwOps (addr : Nat) : List Nat → List HostOp
  | [] => []
  | b :: bs => .memWrite addr (BitVec.ofNat 8 b) :: memwOps (addr + 1) bs

/-- Byte reads at ascending addresses, in order (R78). -/
def memrOps (addr : Nat) : Nat → List HostOp
  | 0 => []
  | len + 1 => .memRead addr :: memrOps (addr + 1) len

/-- The accesses a statement stands for (R78, R79). -/
def HostStmt.expand : HostStmt → List HostOp
  | .wr r imm => [wrOp r imm]
  | .rd r => [.regRead 32 r.offset]
  | .memw addr bs => memwOps addr bs
  | .memr addr len => memrOps addr len
  | .wait => [.wait]
  | .encode ib il ob oc =>
    [wrOp .inBase ib, wrOp .inLen il, wrOp .outBase ob, wrOp .outCap oc, wrOp .cmd 0x0000000C, .wait]
  | .decode ib il ob oc =>
    [wrOp .inBase ib, wrOp .inLen il, wrOp .outBase ob, wrOp .outCap oc, wrOp .cmd 0x0000000D, .wait]
  | .encBound n => [wrOp .inLen n, wrOp .cmd 0x00000002, .wait]
  | .decBound m => [wrOp .inLen m, wrOp .cmd 0x00000003, .wait]

/-- The HOST in focus is given a program to run after what it has still to do. -/
def State.withProgram (s : State) (p : List HostStmt) : State :=
  { s with self := { s.self with host := s.self.host ++ p.flatMap HostStmt.expand } }

/-! ## The transcriber -/

/-- Why text spells no host statement (R77). -/
inductive TextError where
  /-- The first word is no statement of R78 or R79. -/
  | unknownStatement
  /-- The register name is none of 10_state.md's. -/
  | unknownRegister
  /-- An immediate is no numeral, or out of range. -/
  | badImmediate
  /-- The number of operands is another one. -/
  | badOperands
  deriving DecidableEq, Repr

/-- A refusal of the transcriber, with the line it stands on, counted from 1. -/
structure TextRefusal where
  line : Nat
  error : TextError
  deriving DecidableEq, Repr

/-- The parts of a text between occurrences of a separator. -/
def splitText (sep : Char) : List Char → List (List Char)
  | [] => [[]]
  | c :: cs =>
    if c = sep then [] :: splitText sep cs
    else match splitText sep cs with
      | [] => [[c]]
      | w :: ws => (c :: w) :: ws

/-- A space, a tab or a carriage return (log 11). -/
def isBlank (c : Char) : Bool := c = ' ' || c = '\t' || c = '\r'

/-- A text without the blanks around it. -/
def trimText (t : List Char) : List Char := ((t.dropWhile isBlank).reverse.dropWhile isBlank).reverse

/-- How each digit is written, in the order of the values they stand for (log 11). -/
def digitSpellings : List String :=
  ["0", "1", "2", "3", "4", "5", "6", "7", "8", "9", "Aa", "Bb", "Cc", "Dd", "Ee", "Ff"]

/-- The digit of the given base that a character writes: its place among the digits that base has. -/
def digitOf (base : Nat) (c : Char) : Option Nat := (digitSpellings.take base).findIdx? (c ∈ ·.toList)

/-- The number a digit string names, most significant digit first. An empty string names none. -/
def numeral (base : Nat) (t : List Char) : Option Nat :=
  if t = [] then none else t.foldlM (fun n c => (digitOf base c).map (base * n + ·)) 0

/-- An immediate: hexadecimal after 0x, else decimal (log 11), and in range (R77). -/
def parseImm (t : List Char) : Except TextError Nat :=
  let n := if ['0', 'x'].isPrefixOf t then numeral 16 (t.drop 2) else numeral 10 t
  match n.filter immOk with
  | some v => .ok v
  | none => .error .badImmediate

/-- The register a name stands for (10_state.md, section 2). -/
def parseReg (t : List Char) : Except TextError Reg :=
  if t = "CMD".toList then .ok .cmd
  else if t = "STATUS".toList then .ok .status
  else if t = "IN_BASE".toList then .ok .inBase
  else if t = "IN_LEN".toList then .ok .inLen
  else if t = "OUT_BASE".toList then .ok .outBase
  else if t = "OUT_CAP".toList then .ok .outCap
  else if t = "RESULT".toList then .ok .result
  else .error .unknownRegister

/-- The immediates that texts spell. -/
def parseImms : List (List Char) → Except TextError (List Nat)
  | [] => .ok []
  | t :: ts =>
    match parseImm t, parseImms ts with
    | .ok n, .ok ns => .ok (n :: ns)
    | .error e, _ => .error e
    | .ok _, .error e => .error e

/-- A statement from its first word and its operands (R78, R79). -/
def parseStmt (word : List Char) (args : List (List Char)) : Except TextError HostStmt :=
  if word = "WR".toList then
    match args with
    | [r, v] =>
      match parseReg r, parseImm v with
      | .ok reg, .ok imm => .ok (.wr reg imm)
      | .error e, _ => .error e
      | .ok _, .error e => .error e
    | _ => .error .badOperands
  else if word = "RD".toList then
    match args with
    | [r] =>
      match parseReg r with
      | .ok reg => .ok (.rd reg)
      | .error e => .error e
    | _ => .error .badOperands
  else if word = "WAIT".toList then
    match args with
    | [] => .ok .wait
    | _ => .error .badOperands
  else if word = "MEMW".toList then
    match parseImms args with
    | .ok (addr :: b :: bs) => if (b :: bs).all (· < 256) then .ok (.memw addr (b :: bs)) else .error .badImmediate
    | .ok _ => .error .badOperands
    | .error e => .error e
  else if word = "MEMR".toList then
    match parseImms args with
    | .ok [addr, len] => .ok (.memr addr len)
    | .ok _ => .error .badOperands
    | .error e => .error e
  else if word = "ENCODE".toList then
    match parseImms args with
    | .ok [ib, il, ob, oc] => .ok (.encode ib il ob oc)
    | .ok _ => .error .badOperands
    | .error e => .error e
  else if word = "DECODE".toList then
    match parseImms args with
    | .ok [ib, il, ob, oc] => .ok (.decode ib il ob oc)
    | .ok _ => .error .badOperands
    | .error e => .error e
  else if word = "ENCBOUND".toList then
    match parseImms args with
    | .ok [n] => .ok (.encBound n)
    | .ok _ => .error .badOperands
    | .error e => .error e
  else if word = "DECBOUND".toList then
    match parseImms args with
    | .ok [m] => .ok (.decBound m)
    | .ok _ => .error .badOperands
    | .error e => .error e
  else .error .unknownStatement

/-- The operands of a statement: the parts between commas. -/
def operandTexts (t : List Char) : List (List Char) :=
  if trimText t = [] then [] else (splitText ',' t).map trimText

/-- A line: a comment starts at `;` (R78). DESIGN CHOICE, log 11: a line with nothing before its comment or its end is
allowed and holds no statement; R78 says only "One statement per line". -/
def parseLine (t : List Char) : Except TextError (Option HostStmt) :=
  let code := trimText (t.takeWhile (· ≠ ';'))
  if code = [] then .ok none
  else
    match parseStmt (code.takeWhile (!isBlank ·)) (operandTexts (code.dropWhile (!isBlank ·))) with
    | .ok st => .ok (some st)
    | .error e => .error e

/-- The statements of lines numbered from `n` on, or the first refusal (R77). -/
def parseLines : Nat → List (List Char) → Except TextRefusal (List HostStmt)
  | _, [] => .ok []
  | n, t :: ts =>
    match parseLine t with
    | .error e => .error ⟨n, e⟩
    | .ok st =>
      match parseLines (n + 1) ts with
      | .error e => .error e
      | .ok sts => .ok (st.toList ++ sts)

/-- The program a text spells: one statement a line (R78), refused by name and line otherwise (R77). -/
def parseProgram (text : String) : Except TextRefusal (List HostStmt) := parseLines 1 (splitText '\n' text.toList)

end Sys2Proof.Machine
end

