-- ==== Sys2Proof/Safety.lean ====
section
/-!
DEFINITION. What counts as a good run, in the terms statements use: the end of a run and a good final state
(70_reset_and_hazards.md R201), and the invariant of the states a run can reach.
-/

namespace Sys2Proof.Machine

/-- An instance is done: its HOST has made its last access and its engine is IDLE (R201). -/
def Codec.done (x : Codec) : Bool := !x.hasWork

/-- R201: the run has ended. -/
def State.ended (s : State) : Bool := s.self.done && s.others.all Codec.done

/-- R201: the final state is good: the run has ended and nothing is marked refused (R8). -/
def State.good (s : State) : Bool := s.ended && !s.self.refused && s.others.all (!·.refused)

/-- The command in flight has passed the issue checks of R81 on its own snapshot. -/
def Engine.accepted (memBytes : Nat) : Engine → Bool
  | .idle => true
  | .busy c =>
    match decodeWord c.cmd with
    | .ok i => (issueRefusal memBytes i c).isNone
    | .error _ => false

/-- R30: the snapshot equals the current register values. -/
def Codec.snapshotFresh (x : Codec) : Bool :=
  match x.engine with
  | .idle => true
  | .busy c => c = x.snapshot x.cmd

/-- What holds of one instance in every state a run can reach: the reserved CMD bits never hold a 1 (R29), the
hardwired STATUS bits are 0 (R29), STATUS.BUSY = 1 exactly when the engine is BUSY (R30), the snapshot equals the
registers (R30), and the command in flight was accepted (R81). -/
abbrev Codec.Ok (memBytes : Nat) (x : Codec) : Prop :=
  cmdReserved x.cmd = 0#28 ∧ statusHardwired x.status = true ∧ statusBusy x.status = x.engine.isBusy ∧
    x.snapshotFresh = true ∧ x.engine.accepted memBytes = true

/-- The protected ranges of the commands in flight are pairwise disjoint (R62, R196). -/
abbrev State.Disjoint (s : State) : Prop :=
  (s.self :: s.others).Pairwise fun x y =>
    rangesMeet x.engine.protectedRanges y.engine.protectedRanges = false

/-- The invariant of the machine. -/
abbrev State.Inv (s : State) : Prop :=
  s.params.Ok ∧ Memory.wf s.params.memBytes s.buf ∧ (∀ x ∈ s.self :: s.others, x.Ok s.params.memBytes) ∧ s.Disjoint

end Sys2Proof.Machine
end

