-- ==== Sys2Proof/Certificates/Slice0/Obligations.lean ====
section
/-!
DEFINITION. The statements for the provers, from the numbered rules of spec/, and the few predicates they are written
with. Nothing here is about a program; host programs appear only as the expansions that 30_encoding.md R79 fixes.
-/

namespace Sys2Proof.Claims

open Sys2Proof.Machine

/-! ## The predicates the statements are written with -/

/-- The address is in [base, base + len). -/
def InRange (base len a : Nat) : Prop := base ≤ a ∧ a < base + len

/-- The issue conditions of 30_encoding.md R81 on the operands themselves: both ranges lie in BUF (R52), they share no
byte (R56), and the capacity reaches the bound (R57). -/
def Accepts (memBytes ib il ob oc bound : Nat) : Prop :=
  ib + il ≤ memBytes ∧ ob + oc ≤ memBytes ∧ (∀ a, InRange ib il a → ¬ InRange ob oc a) ∧ bound ≤ oc

/-- The same for a snapshot. -/
def SnapshotAccepts (memBytes : Nat) (c : Snapshot) (bound : Nat) : Prop :=
  Accepts memBytes c.inBase.toNat c.inLen.toNat c.outBase.toNat c.outCap.toNat bound

/-- No byte of the two ranges belongs to the protected range of another BUSY instance (R62). -/
def Unshared (s : State) (ib il ob oc : Nat) : Prop :=
  ∀ y ∈ s.others, ∀ a, InRange ib il a ∨ InRange ob oc a → y.protects a = false

/-- Both kinds of condition, on the operand registers. -/
def MayIssue (s : State) (bound : Nat) : Prop :=
  SnapshotAccepts s.params.memBytes (s.self.snapshot 0) bound ∧
    Unshared s s.self.inBase.toNat s.self.inLen.toNat s.self.outBase.toNat s.self.outCap.toNat

/-- The state after the accepted issue of the command word `w` (R81). -/
def Issued (s : State) (w : Word) : State :=
  { s with self := { s.self with cmd := w, status := s.self.status ||| 0x10#32, engine := .busy (s.self.snapshot w) } }

/-- `t` differs from `s` only in what a completion step may write (R82): BUF, STATUS, RESULT and the phase, and the
model's own counter of draws. -/
def OnlyCompletion (s t : State) : Prop :=
  t = { s with
    buf := t.buf
    draws := t.draws
    self := { s.self with status := t.self.status, result := t.self.result, engine := t.self.engine } }

/-- Every byte of BUF outside [base, base + len) keeps its value. -/
def KeepsOutside (s t : State) (base len : Nat) : Prop := ∀ a, ¬ InRange base len a → t.byteAt a = s.byteAt a

/-- Every byte of BUF keeps its value. -/
def KeepsBuf (s t : State) : Prop := ∀ a, t.byteAt a = s.byteAt a

/-- The bytes of one block: its code byte and its literals (00_scope.md R11). -/
def blockBytes (literals : List Byte) : List Byte := BitVec.ofNat 8 (literals.length + 1) :: literals

/-- The payload that blocks stand for, by the implied-zero rule (R12, R13): the final block adds no zero, and a full
block of 254 literals adds none. -/
def payload : List (List Byte) → List Byte
  | [] => []
  | [l] => l
  | l :: l' :: ls => l ++ (if l.length < 254 then [0#8] else []) ++ payload (l' :: ls)

/-- F of 40_encoder.md R108: how often the 254-literal test closes a block while `x` is encoded. -/
def firings (x : List Byte) : Nat :=
  (x.foldl (fun p b => (p.1.byte b, if p.1.cursor - p.1.blockStart - 1 = 254 then p.2 + 1 else p.2))
    (EncState.start, 0)).2

/-- A decode result with bytes put before its output. -/
def before (p : List Byte) : DecodeResult → DecodeResult
  | .ok z => .ok (p ++ z)
  | .err e q => .err e (p ++ q)

/-- The output of a decode result, complete or partial. -/
def output : DecodeResult → List Byte
  | .ok z => z
  | .err _ p => p

/-- Some instance carries the refused mark. -/
def AnyRefused (s : State) : Prop := ∃ x ∈ s.self :: s.others, x.refused = true

end Sys2Proof.Claims

open Sys2Proof Sys2Proof.Machine Sys2Proof.Claims

/-! ## The command word -/

/-- R70, R71, R73: every command has a word, that word decodes to it with both presence bits, no other word does, and
the words that decode are exactly those whose bits [31:4] are 0. -/
def Obligations.CommandWordsHaveOneMeaning : Prop :=
  (∀ i : Instr, decodeWord (encode i) = .ok i) ∧ (∀ (w : Word) (i : Instr), decodeWord w = .ok i → encode i = w) ∧
    ∀ w : Word, w.toNat < 16 ↔ ∃ i, decodeWord w = .ok i

/-- R70, R71, R80: words written out from the encoding decode to the command they stand for. -/
def Obligations.WrittenOutWordsDecode : Prop :=
  decodeWord 0x0000000C#32 = .ok (.encode true true) ∧ decodeWord 0x00000004#32 = .ok (.encode true false) ∧
    decodeWord 0x0000000D#32 = .ok (.decode true true) ∧ decodeWord 0x00000009#32 = .ok (.decode false true) ∧
    decodeWord 0x00000002#32 = .ok (.encBound false false) ∧ decodeWord 0x0000000E#32 = .ok (.encBound true true) ∧
    decodeWord 0x00000003#32 = .ok (.decBound false false) ∧ decodeWord 0x00000007#32 = .ok (.decBound true false) ∧
    decodeWord 0x00000010#32 = .error .reservedBits ∧ decodeWord 0x8000000C#32 = .error .reservedBits

/-- R73: a CMD write with a bit of [31:4] set is refused (R8: the mark is set) and changes nothing else: no register (so
CMD and STATUS), no phase, no byte and no other instance; every other word is one of the 16 legal combinations. (That a
refused access answers the host's `refused` and leaves the mark through `State.settle` is the model's choice, log 4.) -/
def Obligations.ReservedCommandWordIsRefused : Prop :=
  (∀ (s : State) (v : Word), cmdReserved v ≠ 0#28 →
    (∃ r, access (.regWrite 32 0x00 v) s = .refused r) ∧
      ∃ t, t = s.settle (access (.regWrite 32 0x00 v) s) ∧ t.self.refused = true ∧
        (∀ q : Reg, t.self.get q = s.self.get q) ∧ t.self.engine = s.self.engine ∧ t.buf = s.buf ∧
        t.others = s.others) ∧
    ∀ v : Word, cmdReserved v = 0#28 → ∃ op ip opr, decodeWord v = .ok (opcodeMap op ip opr)

/-! ## Sizing -/

/-- R151: EncodedSizeBound(n) is 1 for n = 0 and n + ceil(n / 254) otherwise, that is n + 1 + floor((n - 1) / 254). -/
def Obligations.EncodedSizeBoundIsTheFormula : Prop :=
  encodedSizeBound 0 = 1 ∧ ∀ n, 1 ≤ n → encodedSizeBound n = n + (n + 254 - 1) / 254 ∧
    encodedSizeBound n = n + 1 + (n - 1) / 254

/-- R155: both sizing functions are monotone, and DecodedSizeBound never exceeds its operand (R153). -/
def Obligations.SizingFunctionsAreMonotone : Prop :=
  (∀ m n, m ≤ n → encodedSizeBound m ≤ encodedSizeBound n) ∧ (∀ m n, m ≤ n → decodedSizeBound m ≤ decodedSizeBound n) ∧
    ∀ m, decodedSizeBound m ≤ m

/-- R150: ENC_BOUND is issued when its bound fits in 32 bits, whatever the presence bits and the other operands say,
owns no byte, and completes with ERR = 0, RESULT the bound, and nothing else changed. -/
def Obligations.EncBoundIssuesAndCompletes : Prop :=
  ∀ (s : State) (ip op : Bool),
    (s.self.engine = .idle → encodedSizeBound s.self.inLen.toNat ≤ 2 ^ 32 - 1 →
      exec (.encBound ip op) s = .next (Issued s (encode (.encBound ip op)))) ∧
    (∀ c : Snapshot, cmdOp c.cmd = 2#2 → c.protectedRanges = []) ∧
    ∀ c, s.self.engine = .busy c → encodedSizeBound c.inLen.toNat ≤ 2 ^ 32 - 1 →
      exec (.encBound ip op) s = .next { s with
        self := { s.self with
          status := 0#32, result := BitVec.ofNat 32 (encodedSizeBound c.inLen.toNat), engine := .idle } }

/-- R152: the bound overflows exactly above MAX_ENC_IN, ENC_BOUND is then refused at issue, and ENCODE never gets
there, since its capacity is a 32-bit value. -/
def Obligations.EncBoundOverflowIsRefused : Prop :=
  (∀ n, encodedSizeBound n > 2 ^ 32 - 1 ↔ n > 0xFEFEFEFE) ∧ encodedSizeBound 0xFEFEFEFE = 0xFFFFFFFF ∧
    encodedSizeBound 0xFEFEFEFF = 2 ^ 32 + 1 ∧
    (∀ (s : State) (ip op : Bool), s.self.engine = .idle →
      (exec (.encBound ip op) s = .refused .boundOverflow ↔ s.self.inLen.toNat > 0xFEFEFEFE)) ∧
    ∀ (memBytes : Nat) (c : Snapshot), SnapshotAccepts memBytes c (encodedSizeBound c.inLen.toNat) →
      encodedSizeBound c.inLen.toNat ≤ 2 ^ 32 - 1

/-- R153: DEC_BOUND is issued whatever its operands and presence bits, owns no byte, and completes with ERR = 0, RESULT
the bound, and nothing else changed. -/
def Obligations.DecBoundIssuesAndCompletes : Prop :=
  ∀ (s : State) (ip op : Bool),
    (s.self.engine = .idle → exec (.decBound ip op) s = .next (Issued s (encode (.decBound ip op)))) ∧
    (∀ c : Snapshot, cmdOp c.cmd = 3#2 → c.protectedRanges = []) ∧
    ∀ c, s.self.engine = .busy c →
      exec (.decBound ip op) s = .next { s with
        self := { s.self with
          status := 0#32, result := BitVec.ofNat 32 (decodedSizeBound c.inLen.toNat), engine := .idle } } ∧
      (BitVec.ofNat 32 (decodedSizeBound c.inLen.toNat)).toNat = decodedSizeBound c.inLen.toNat

/-! ## The encoder -/

/-- R105, R112, R113, and R104 with 90_conflicts.md C1 (254 non-zero bytes are one full block and no empty one): worked
examples of the encoder. -/
def Obligations.EncoderWorkedExamples : Prop :=
  cobsEncode [] = [0x01#8] ∧ cobsEncode [0x11#8, 0x22#8, 0x00#8, 0x33#8] = [0x03#8, 0x11#8, 0x22#8, 0x02#8, 0x33#8] ∧
    cobsEncode [0x11#8, 0x00#8] = [0x02#8, 0x11#8, 0x01#8] ∧ cobsEncode [0x00#8, 0x11#8] = [0x01#8, 0x02#8, 0x11#8] ∧
    cobsEncode [0xFF#8] = [0x02#8, 0xFF#8] ∧
    cobsEncode (List.replicate 254 0xAA#8) = 0xFF#8 :: List.replicate 254 0xAA#8

/-- R107, R11 to R13, R14 (a) to (c): what the encoder gives contains no zero byte; it is a run of blocks, each of at most
254 non-zero literals behind its own code byte; the codes sum to its length; and those blocks stand for exactly the
payload. -/
def Obligations.EncoderOutputIsBlocksOfThePayload : Prop :=
  ∀ x : List Byte, 0#8 ∉ cobsEncode x ∧ ∃ ls : List (List Byte), ls ≠ [] ∧ cobsEncode x = ls.flatMap blockBytes ∧
    payload ls = x ∧ (∀ l ∈ ls, l.length ≤ 254 ∧ 0#8 ∉ l) ∧
    (ls.map fun l => (BitVec.ofNat 8 (l.length + 1)).toNat).sum = (cobsEncode x).length

/-- R108: the output length is n + F + 1, F is at most floor((n - 1) / 254), so the bound holds. -/
def Obligations.EncodedLengthMeetsTheBound : Prop :=
  ∀ x : List Byte, (cobsEncode x).length = x.length + firings x + 1 ∧
    (1 ≤ x.length → firings x ≤ (x.length - 1) / 254) ∧ (x.length = 0 → firings x = 0) ∧
    (cobsEncode x).length ≤ encodedSizeBound x.length

/-- R108, R109: the bound is reached exactly when F = floor((n - 1) / 254) or n = 0; so it is for every payload without
a zero; a payload of n zeros reaches it exactly up to n = 254; and one zero before 254 non-zero bytes misses it. (R109
and R155 say that EVERY payload of zeros reaches it, which their own R108 contradicts above 254: log 12.) -/
def Obligations.EncodedBoundIsReached : Prop :=
  (∀ x : List Byte, (cobsEncode x).length = encodedSizeBound x.length ↔
      x.length = 0 ∨ firings x = (x.length - 1) / 254) ∧
    (∀ x : List Byte, 0#8 ∉ x → (cobsEncode x).length = encodedSizeBound x.length) ∧
    (∀ n, (cobsEncode (List.replicate n 0#8)).length = encodedSizeBound n ↔ n ≤ 254) ∧
    (cobsEncode (0#8 :: List.replicate 254 0xAA#8)).length < encodedSizeBound 255

/-- The sentence of R109 and R155 that every payload made only of zeros reaches the bound, as it stands. Expected to
FAIL: 255 zeros encode to 256 bytes and the bound is 257 (R103, R108, R151; log 12). -/
def Obligations.EveryAllZeroPayloadReachesTheBound : Prop :=
  ∀ n, (cobsEncode (List.replicate n 0#8)).length = encodedSizeBound n

/-- R114: decoding what the encoder gives returns the payload, for every payload. -/
def Obligations.DecodeOfEncodeIsThePayload : Prop := ∀ x : List Byte, cobsDecode (cobsEncode x) = .ok x

/-! ## The decoder -/

/-- R12, R13, R124 to R128: what the decoder does block by block. A zero code byte is an error; a block of code C
copies C - 1 literals; the first failing literal position decides the error; the final block adds no zero; after any
other block a zero follows unless C = 255, and decoding goes on. -/
def Obligations.DecoderBlockLaws : Prop :=
  cobsDecode [] = .ok [] ∧
    (∀ rest, cobsDecode (0#8 :: rest) = .err .zero []) ∧
    ∀ (code : Byte) (ls : List Byte), code ≠ 0#8 → 0#8 ∉ ls →
      (ls.length + 1 = code.toNat → cobsDecode (code :: ls) = .ok ls) ∧
      (∀ b rest, ls.length + 1 = code.toNat →
        cobsDecode (code :: (ls ++ b :: rest)) =
          before (ls ++ if code.toNat < 255 then [0#8] else []) (cobsDecode (b :: rest))) ∧
      (ls.length + 1 < code.toNat → cobsDecode (code :: ls) = .err .truncated ls) ∧
      ∀ rest, ls.length + 1 < code.toNat → cobsDecode (code :: (ls ++ 0#8 :: rest)) = .err .zero ls

/-- R133: the decoded-size bound holds on success and for the partial output before a failure. -/
def Obligations.DecodedLengthMeetsTheBound : Prop :=
  ∀ y : List Byte, 1 ≤ y.length →
    (output (cobsDecode y)).length ≤ y.length - 1 ∧ decodedSizeBound y.length = y.length - 1

/-- R134: decoding is not injective, and re-encoding a decoded input gives it back exactly when it is an output of the
encoder. -/
def Obligations.ReencodingGivesBackEncoderOutputsOnly : Prop :=
  cobsDecode (0xFF#8 :: List.replicate 254 0xAA#8) = .ok (List.replicate 254 0xAA#8) ∧
    cobsDecode (0xFF#8 :: (List.replicate 254 0xAA#8 ++ [0x01#8])) = .ok (List.replicate 254 0xAA#8) ∧
    cobsEncode (List.replicate 254 0xAA#8) = 0xFF#8 :: List.replicate 254 0xAA#8 ∧
    ∀ y z, cobsDecode y = .ok z → (cobsEncode z = y ↔ ∃ x, y = cobsEncode x)

/-- R135: an encoder output that still ends in its delimiter fails with ZeroInEncodedData. -/
def Obligations.DelimiterIsRejected : Prop := ∀ x : List Byte, ∃ p, cobsDecode (cobsEncode x ++ [0#8]) = .err .zero p

/-- R132: a ZeroInEncodedData failure belongs to the lowest input position that fails, so nothing that follows in the
input changes it. -/
def Obligations.ZeroErrorIgnoresWhatFollows : Prop :=
  ∀ y p w, cobsDecode y = .err .zero p → cobsDecode (y ++ w) = .err .zero p

/-! ## Issue of ENCODE and DECODE -/

/-- R81 with R52, R56, R57, R62: with both buffers present, ENCODE is issued exactly when its conditions hold, with
CMD, the snapshot and BUSY set and nothing else changed; otherwise it is refused. -/
def Obligations.EncodeIssuesUnderItsConditions : Prop :=
  ∀ s : State, s.self.engine = .idle →
    (MayIssue s (encodedSizeBound s.self.inLen.toNat) →
      exec (.encode true true) s = .next (Issued s 0x0000000C#32)) ∧
    (¬ MayIssue s (encodedSizeBound s.self.inLen.toNat) → ∃ r, exec (.encode true true) s = .refused r)

/-- R81 with R52, R56, R57, R62: the same for DECODE and its bound. -/
def Obligations.DecodeIssuesUnderItsConditions : Prop :=
  ∀ s : State, s.self.engine = .idle →
    (MayIssue s (decodedSizeBound s.self.inLen.toNat) →
      exec (.decode true true) s = .next (Issued s 0x0000000D#32)) ∧
    (¬ MayIssue s (decodedSizeBound s.self.inLen.toNat) → ∃ r, exec (.decode true true) s = .refused r)

/-- R55: the protected range of a command in flight. -/
def Obligations.ProtectedRangeIsBothBuffers : Prop :=
  ∀ c : Snapshot,
    (decodeWord c.cmd = .ok (.encode true true) ∨ decodeWord c.cmd = .ok (.decode true true) →
      ∀ x : Codec, x.engine = .busy c → ∀ a, x.protects a = true ↔
        InRange c.inBase.toNat c.inLen.toNat a ∨ InRange c.outBase.toNat c.outCap.toNat a) ∧
    (∀ ip op, (ip && op) = false → decodeWord c.cmd = .ok (.encode ip op) ∨ decodeWord c.cmd = .ok (.decode ip op) →
      c.protectedRanges = []) ∧
    ∀ ip op, decodeWord c.cmd = .ok (.encBound ip op) ∨ decodeWord c.cmd = .ok (.decBound ip op) →
      c.protectedRanges = []

/-! ## Completion of ENCODE and DECODE -/

/-- R106: ENCODE with both buffers present completes with ERR = 0, RESULT = len(y) and y at the start of the output
range, where y is the encoding of the input; the rest of the output range holds any value, every other byte and
everything else is unchanged. -/
def Obligations.EncodeCompletes : Prop :=
  ∀ (s : State) (c : Snapshot), s.self.engine = .busy c →
    SnapshotAccepts s.params.memBytes c (encodedSizeBound c.inLen.toNat) →
    ∃ t, exec (.encode true true) s = .next t ∧ OnlyCompletion s t ∧ t.self.engine = .idle ∧ t.self.status = 0#32 ∧
      t.self.result.toNat = (cobsEncode (s.bytesAt c.inBase.toNat c.inLen.toNat)).length ∧
      t.self.result.toNat ≤ c.outCap.toNat ∧
      t.bytesAt c.outBase.toNat t.self.result.toNat = cobsEncode (s.bytesAt c.inBase.toNat c.inLen.toNat) ∧
      KeepsOutside s t c.outBase.toNat c.outCap.toNat

/-- R101: ENCODE with an absent buffer is issued whatever its operands, and completes with ERR = InvalidArgument and
RESULT any value; it writes no byte of BUF and reads none. (That RESULT is one value per count of draws, the same whatever
BUF, the operands and the old RESULT hold, is the model's choice, log 7; R101 says any value.) -/
def Obligations.EncodeWithAbsentBufferIsInvalidArgument : Prop :=
  ∀ (ip op : Bool) (d : Nat), (ip && op) = false → ∃ v n, ∀ s : State,
    (s.self.engine = .idle → exec (.encode ip op) s = .next (Issued s (encode (.encode ip op)))) ∧
    ∀ c, s.self.engine = .busy c → s.draws = d → exec (.encode ip op) s = .next { s with
      draws := n, self := { s.self with status := 1#32, result := v, engine := .idle } }

/-- R121: DECODE with an absent buffer, the same. (RESULT as one value per count of draws is the model's choice, log 7;
R121 says any value.) -/
def Obligations.DecodeWithAbsentBufferIsInvalidArgument : Prop :=
  ∀ (ip op : Bool) (d : Nat), (ip && op) = false → ∃ v n, ∀ s : State,
    (s.self.engine = .idle → exec (.decode ip op) s = .next (Issued s (encode (.decode ip op)))) ∧
    ∀ c, s.self.engine = .busy c → s.draws = d → exec (.decode ip op) s = .next { s with
      draws := n, self := { s.self with status := 1#32, result := v, engine := .idle } }

/-- R130: DECODE of a well-formed input completes with ERR = 0, RESULT = len(z) and z at the start of the output range;
the rest of the output range holds any value, every other byte and everything else is unchanged. -/
def Obligations.DecodeCompletes : Prop :=
  ∀ (s : State) (c : Snapshot) (z : List Byte), s.self.engine = .busy c →
    SnapshotAccepts s.params.memBytes c (decodedSizeBound c.inLen.toNat) →
    cobsDecode (s.bytesAt c.inBase.toNat c.inLen.toNat) = .ok z →
    ∃ t, exec (.decode true true) s = .next t ∧ OnlyCompletion s t ∧ t.self.engine = .idle ∧ t.self.status = 0#32 ∧
      t.self.result.toNat = z.length ∧ z.length ≤ c.outCap.toNat ∧ t.bytesAt c.outBase.toNat z.length = z ∧
      KeepsOutside s t c.outBase.toNat c.outCap.toNat

/-- R131: DECODE of a malformed input completes with the error's code in STATUS; RESULT and the output range hold any
value, every other byte and everything else is unchanged. -/
def Obligations.DecodeReportsDataErrors : Prop :=
  ∀ (s : State) (c : Snapshot) (e : DataErr) (p : List Byte), s.self.engine = .busy c →
    SnapshotAccepts s.params.memBytes c (decodedSizeBound c.inLen.toNat) →
    cobsDecode (s.bytesAt c.inBase.toNat c.inLen.toNat) = .err e p →
    ∃ t, exec (.decode true true) s = .next t ∧ OnlyCompletion s t ∧ t.self.engine = .idle ∧
      t.self.status = (match e with | .zero => 2#32 | .truncated => 3#32) ∧
      KeepsOutside s t c.outBase.toNat c.outCap.toNat

/-- R128: decoding nothing is a success of length 0, and DECODE with IN_LEN = 0 completes with ERR = 0 and RESULT = 0
for every OUT_CAP. -/
def Obligations.DecodeOfNothingSucceeds : Prop :=
  cobsDecode [] = .ok [] ∧ decodedSizeBound 0 = 0 ∧
    ∀ (s : State) (c : Snapshot), s.self.engine = .busy c → c.inLen = 0#32 → c.inBase.toNat ≤ s.params.memBytes →
      c.outBase.toNat + c.outCap.toNat ≤ s.params.memBytes →
      ∃ t, exec (.decode true true) s = .next t ∧ t.self.status = 0#32 ∧ t.self.result = 0#32

/-! ## Frames of the commands -/

/-- The frame of every command's completion (R53, R54, R82): for every form, the registers other than STATUS and
RESULT, the refused mark, the HOST, the other instances and the parameters are unchanged; STATUS ends with BUSY = 0 and
its hardwired bits 0; and every byte is unchanged outside the output range of an ENCODE or DECODE with both buffers. -/
def Obligations.CompletionFrame : Prop :=
  ∀ (i : Instr) (s t : State) (c : Snapshot), s.self.engine = .busy c → exec i s = .next t →
    OnlyCompletion s t ∧ t.self.engine = .idle ∧ statusBusy t.self.status = false ∧
      statusHardwired t.self.status = true ∧ (Instr.usesBuffers i = false → KeepsBuf s t) ∧
      (Instr.usesBuffers i = true → KeepsOutside s t c.outBase.toNat c.outCap.toNat)

/-- The frame of every command's issue (R81): only CMD, STATUS.BUSY and the phase change, for every form; ERR, RESULT,
the operand registers and every byte of BUF are unchanged. -/
def Obligations.IssueFrame : Prop :=
  ∀ (i : Instr) (s t : State), s.self.engine = .idle → exec i s = .next t →
    t = { s with self := { s.self with cmd := t.self.cmd, status := t.self.status, engine := t.self.engine } } ∧
      t.self.cmd = encode i ∧ statusErr t.self.status = statusErr s.self.status ∧ statusBusy t.self.status = true ∧
      KeepsBuf s t

/-- R54: no command changes any byte of its input range, and every byte outside its output range keeps its value, at its
issue and at its completion. -/
def Obligations.InputIsNeverChanged : Prop :=
  ∀ (i : Instr) (s t : State), exec i s = .next t → (s.self.engine = .idle → KeepsBuf s t) ∧
    ∀ c : Snapshot, s.self.engine = .busy c →
      (∀ a, InRange c.inBase.toNat c.inLen.toNat a → t.byteAt a = s.byteAt a) ∧
        KeepsOutside s t c.outBase.toNat c.outCap.toNat

/-- R15: a command reads only its snapshot and its input bytes. Two states that agree on those give the same STATUS,
and on success the same RESULT and the same output bytes, whatever else they hold. -/
def Obligations.CommandsAreIndependent : Prop :=
  ∀ (i : Instr) (s s' t t' : State) (c : Snapshot), s.self.engine = .busy c → s'.self.engine = .busy c →
    (∀ a, InRange c.inBase.toNat c.inLen.toNat a → s'.byteAt a = s.byteAt a) →
    exec i s = .next t → exec i s' = .next t' →
    t'.self.status = t.self.status ∧ (t.self.status = 0#32 → t'.self.result = t.self.result ∧
      (Instr.usesBuffers i = true →
        t'.bytesAt c.outBase.toNat t.self.result.toNat = t.bytesAt c.outBase.toNat t.self.result.toNat))

/-! ## The HOST -/

/-- R28: a register access of another width, at an offset that is no multiple of 4, or at 0x1C or above is refused,
read or write; every other access reaches the register of that offset, and a read changes nothing of the block. -/
def Obligations.RegisterWindowAccess : Prop :=
  ∀ (s : State) (width offset : Nat) (v : Word),
    (width ≠ 32 ∨ offset % 4 ≠ 0 ∨ 0x1C ≤ offset →
      access (.regRead width offset) s = .refused .registerAccess ∧
        access (.regWrite width offset v) s = .refused .registerAccess) ∧
    (width = 32 → offset % 4 = 0 → offset < 0x1C → ∃ r : Reg, r.offset = offset ∧
      access (.regWrite width offset v) s = writeReg r v s ∧
      ∃ w n, access (.regRead width offset) s = .next
        { s with draws := n, self := { s.self with seen := .reg r w :: s.self.seen } })

/-- R21 to R27: while IDLE a read of a register returns its stored value. -/
def Obligations.IdleReadsReturnTheRegister : Prop :=
  ∀ (s : State) (r : Reg), s.self.engine = .idle →
    access (.regRead 32 r.offset) s = .next
      { s with self := { s.self with seen := .reg r (s.self.get r) :: s.self.seen } }

/-- R23 to R26: while IDLE a write of an operand register stores the value there and changes nothing else. -/
def Obligations.IdleOperandWrites : Prop :=
  ∀ (s : State) (v : Word), s.self.engine = .idle →
    access (.regWrite 32 0x08 v) s = .next { s with self := { s.self with inBase := v } } ∧
    access (.regWrite 32 0x0C v) s = .next { s with self := { s.self with inLen := v } } ∧
    access (.regWrite 32 0x10 v) s = .next { s with self := { s.self with outBase := v } } ∧
    access (.regWrite 32 0x14 v) s = .next { s with self := { s.self with outCap := v } }

/-- R194: the busy window. Writes of CMD and of the operand registers and accesses to the protected range are refused;
STATUS reads BUSY = 1 with any ERR, RESULT reads any value, the other registers read their values; writes to STATUS and
RESULT are ignored. -/
def Obligations.BusyWindow : Prop :=
  ∀ (s : State) (c : Snapshot), s.self.engine = .busy c →
    (∀ v, access (.regWrite 32 0x00 v) s = .refused .cmdWhileBusy) ∧
    (∀ v, ∀ o ∈ [0x08, 0x0C, 0x10, 0x14], access (.regWrite 32 o v) s = .refused .operandWriteWhileBusy) ∧
    (∀ a b, s.self.protects a = true → (∃ r, access (.memRead a) s = .refused r) ∧
      ∃ r, access (.memWrite a b) s = .refused r) ∧
    (∃ e : BitVec 2, ∃ n, access (.regRead 32 0x04) s = .next
      { s with draws := n, self := { s.self with seen := .reg .status (0x10#32 ||| e.setWidth 32) :: s.self.seen } }) ∧
    (∃ v n, access (.regRead 32 0x18) s = .next
      { s with draws := n, self := { s.self with seen := .reg .result v :: s.self.seen } }) ∧
    (∀ r ∈ [Reg.cmd, .inBase, .inLen, .outBase, .outCap], access (.regRead 32 r.offset) s = .next
      { s with self := { s.self with seen := .reg r (s.self.get r) :: s.self.seen } }) ∧
    ∀ v, access (.regWrite 32 0x04 v) s = .next s ∧ access (.regWrite 32 0x18 v) s = .next s

/-- R22, R27, R29: STATUS and RESULT ignore host writes, IDLE or BUSY. -/
def Obligations.ReadOnlyRegistersIgnoreWrites : Prop :=
  ∀ (s : State) (v : Word), access (.regWrite 32 0x04 v) s = .next s ∧ access (.regWrite 32 0x18 v) s = .next s

/-- R58, R59, R62: a host access to a byte at MEM_BYTES or above, or in the protected range of any BUSY instance, is
refused; any other read returns the byte and any other write replaces it and leaves every other byte alone. -/
def Obligations.HostByteAccess : Prop :=
  ∀ (s : State) (a : Nat) (b : Byte),
    (s.params.memBytes ≤ a → access (.memRead a) s = .refused .hostAddress ∧
      access (.memWrite a b) s = .refused .hostAddress) ∧
    (a < s.params.memBytes → (∃ x ∈ s.self :: s.others, x.protects a = true) →
      access (.memRead a) s = .refused .protectedByte ∧ access (.memWrite a b) s = .refused .protectedByte) ∧
    (a < s.params.memBytes → (∀ x ∈ s.self :: s.others, x.protects a = false) →
      access (.memRead a) s = .next
        { s with self := { s.self with seen := .mem a (s.byteAt a) :: s.self.seen } } ∧
      ∃ t, access (.memWrite a b) s = .next t ∧ t = { s with buf := t.buf } ∧ t.byteAt a = b ∧
        KeepsOutside s t a 1)

/-- R78, R195: `WAIT` reads STATUS; it stays the HOST's next access while BUSY reads 1, and is over when it reads 0. -/
def Obligations.WaitPollsUntilIdle : Prop :=
  ∀ (s : State) (rest : List HostOp), s.self.host = .wait :: rest →
    (∀ c, s.self.engine = .busy c → ∃ e : BitVec 2, ∃ n, hostStep s = .next
      { s with draws := n, self := { s.self with seen := .reg .status (0x10#32 ||| e.setWidth 32) :: s.self.seen } }) ∧
    (s.self.engine = .idle → statusBusy s.self.status = false → hostStep s = .next
      { s with self := { s.self with host := rest, seen := .reg .status s.self.status :: s.self.seen } })

/-! ## Reset -/

/-- R190: the state right after power-on and reset, and reset in any state: registers 0, engine IDLE, the refused mark
unchanged (false at power-on, R20), and a command is accepted at once after it; reset of an IDLE instance is always taken
and changes no byte of BUF (of a BUSY one: `ResetAbandonsTheCommand`). (The size of BUF and the number of instances of
`State.reset` are the model's choice, logs 5 and 6, and are not stated.) -/
def Obligations.ResetLeavesTheRegistersZero : Prop :=
  ((∀ r : Reg, State.reset.self.get r = 0#32) ∧ State.reset.self.engine = .idle ∧ State.reset.self.refused = false) ∧
    (∀ s t : State, s.reset1 = .next t → (∀ r : Reg, t.self.get r = 0#32) ∧ t.self.engine = .idle ∧
      t.self.refused = s.self.refused ∧ ∃ u, writeCmd 0x00000002#32 t = .next u) ∧
    ∀ s : State, s.self.engine = .idle → ∃ t, s.reset1 = .next t ∧ t.buf = s.buf

/-- R191: reset while BUSY abandons the command: R190's values, each byte of the output range of an ENCODE or DECODE
with both buffers becomes any value, its input range and every byte outside the output range are unchanged, and for
any other command memory is unchanged. (That its ranges lie in BUF and are disjoint is what its issue checked, R81.) -/
def Obligations.ResetAbandonsTheCommand : Prop :=
  ∀ (s : State) (c : Snapshot), s.self.engine = .busy c →
    (c.usesBuffers = true → c.outBase.toNat + c.outCap.toNat ≤ s.params.memBytes) →
    ∃ t, s.reset1 = .next t ∧ (∀ r : Reg, t.self.get r = 0#32) ∧ t.self.engine = .idle ∧
      t.self.refused = s.self.refused ∧ (c.usesBuffers = false → KeepsBuf s t) ∧
      KeepsOutside s t c.outBase.toNat c.outCap.toNat ∧
      ((∀ a, InRange c.inBase.toNat c.inLen.toNat a → ¬ InRange c.outBase.toNat c.outCap.toNat a) →
        ∀ a, InRange c.inBase.toNat c.inLen.toNat a → t.byteAt a = s.byteAt a)

/-! ## Steps -/

/-- R9, R31, R82: when the ENGINE's turn comes while BUSY(c), the step runs the command that c's word decodes to, on
the state without that turn; and a command word placed by `withFetchWord` is run by the very next step. -/
def Obligations.StepRunsTheDecodedCommand : Prop :=
  (∀ (s : State) (c : Snapshot) (i : Instr), s.nextTurn = .engine → s.self.engine = .busy c →
    decodeWord c.cmd = .ok i → step s = exec i s.popTurn) ∧
  ∀ (s : State) (w : Nat) (i : Instr), decodeTableWord 32 w = some i →
    step (s.withFetchWord 32 w) = exec i { s.withFetchWord 32 w with schedule := s.schedule }

/-- R21, R81: when the HOST's next access writes the word of a command to CMD while IDLE, the step issues that command,
on the state without that turn and that access; any other access but `WAIT` is made on that state too. -/
def Obligations.StepMakesTheHostsAccess : Prop :=
  ∀ (s : State) (op : HostOp) (rest : List HostOp), s.nextTurn = .host → s.self.host = op :: rest → op ≠ .wait →
    step s = access op s.popTurn.popHost ∧
      ∀ v i, op = .regWrite 32 0x00 v → s.self.engine = .idle → decodeWord v = .ok i →
        step s = exec i s.popTurn.popHost

/-- The schedule (the model's choice, log 3): while it lasts its head moves; after it a BUSY engine moves first, then the
HOST, then the first other instance with work comes into focus, and an ended run stays as it is. A scheduled turn of a HOST
with no access left, of an IDLE engine, or to an instance that does not exist is used up and changes nothing else. -/
def Obligations.ScheduleSaysWhoMoves : Prop :=
  (∀ (s : State) (t : Turn) (ts : List Turn), s.schedule = t :: ts → step s = takeTurn t { s with schedule := ts }) ∧
  (∀ (s : State) (c : Snapshot), s.schedule = [] → s.self.engine = .busy c → step s = engineStep s) ∧
  (∀ s : State, s.schedule = [] → s.self.engine = .idle → s.self.host ≠ [] → step s = hostStep s) ∧
  (∀ (s : State) (k : Nat) (x : Codec), s.schedule = [] → s.self.done = true → s.others[k]? = some x →
    x.hasWork = true → (∀ j < k, ∀ y, s.others[j]? = some y → y.hasWork = false) →
    step s = .next { s with self := x, others := s.others.set k s.self }) ∧
  (∀ s : State, s.schedule = [] → s.ended = true → step s = .next s) ∧
  ∀ (s : State) (ts : List Turn),
    (s.schedule = .host :: ts → s.self.host = [] → step s = .next { s with schedule := ts }) ∧
    (s.schedule = .engine :: ts → s.self.engine = .idle → step s = .next { s with schedule := ts }) ∧
    ∀ k, s.schedule = .switch k :: ts → s.others[k]? = none → step s = .next { s with schedule := ts }

/-! ## The whole machine -/

/-- The invariant holds right after reset. (BUF's size and the number of instances there are the model's choice, logs
5 and 6.) -/
def Obligations.ResetMeetsTheInvariant : Prop := State.reset.Inv

/-- R29, R30, R52, R62, R81: every step keeps the invariant: BUF canonical and inside MEM_BYTES, the reserved CMD bits
and the hardwired STATUS bits 0, STATUS.BUSY = 1 exactly when BUSY, the snapshot equal to the registers, only accepted
commands in flight, and their protected ranges pairwise disjoint. -/
def Obligations.EveryStepKeepsTheInvariant : Prop := ∀ s t : State, s.Inv → step s = .next t → t.Inv

/-- R170: the block has no fault; no step of a state that meets the invariant ends in one. -/
def Obligations.NoStepFaults : Prop := ∀ (s : State) (r : Fault), s.Inv → step s ≠ .fault r

/-- R82, R200: the completion step of a command in flight is always possible: in every state that meets the invariant
the ENGINE's turn completes the command. -/
def Obligations.CommandInFlightCompletes : Prop :=
  ∀ (s : State) (c : Snapshot), s.Inv → s.self.engine = .busy c →
    ∃ t, engineStep s = .next t ∧ t.self.engine = .idle ∧ statusBusy t.self.status = false

/-- R200, R201: from every state that meets the invariant, whatever turns are scheduled, the run of the machine ends after
finitely many steps, or stops in a refusal. (That the schedule is a finite list, and that a BUSY engine moves first after
it, is the model's reading of weak fairness, log 3.) -/
def Obligations.EveryRunEnds : Prop :=
  ∀ s : State, s.Inv →
    ∃ k, (∃ t, Host.Core.run Sys2Proof.core k s = .next t ∧ t.ended = true) ∨
      ∃ r, Host.Core.run Sys2Proof.core k s = .refused r

/-- R8, R20: a refusal sets the mark of the instance in focus and changes no register, no phase, no byte and no other
instance; a step that is taken changes no instance's mark: a turn that is no change of focus leaves each one where it is, a
change of focus permutes the instances with their marks; and a state with a mark is never good. (That a refused step answers
the host's `refused` and leaves the mark in `State.advance` is the model's choice, log 4; focus is log 3's.) -/
def Obligations.RefusedMarkStays : Prop :=
  (∀ (s : State) (r : Refusal), step s = .refused r → s.advance.self.refused = true ∧
    (∀ q : Reg, s.advance.self.get q = s.self.get q) ∧ s.advance.self.engine = s.self.engine ∧
    s.advance.buf = s.buf ∧ s.advance.others = s.others) ∧
  (∀ s t : State, step s = .next t →
    ((t.self :: t.others).map Codec.refused).Perm ((s.self :: s.others).map Codec.refused)) ∧
  (∀ (u : Turn) (s t : State), (∀ k, u ≠ .switch k) → takeTurn u s = .next t →
    (t.self :: t.others).map Codec.refused = (s.self :: s.others).map Codec.refused) ∧
  (∀ (k : Nat) (s t : State), takeTurn (.switch k) s = .next t → (t.self :: t.others).Perm (s.self :: s.others)) ∧
  ∀ s : State, AnyRefused s → s.good = false

/-- R4, R20, R183: no step changes the parameters or the number of instances. -/
def Obligations.ParametersNeverChange : Prop :=
  ∀ s t : State, step s = .next t → t.params = s.params ∧ t.others.length = s.others.length

/-- R62, R183, R196: instances never otherwise interact: a turn of one instance changes nothing of another and, in every
state that meets the invariant, no byte that another BUSY instance owns (R55); a change of focus only permutes the
instances. (Focus is the model's choice, log 3; that a reset leaves the other instances alone is too, log 10.) -/
def Obligations.InstancesDoNotInteract : Prop :=
  (∀ (u : Turn) (s t : State), (∀ k, u ≠ .switch k) → takeTurn u s = .next t → t.others = s.others ∧
    (s.Inv → ∀ y ∈ s.others, ∀ a, y.protects a = true → t.byteAt a = s.byteAt a)) ∧
  ∀ (s t : State) (k : Nat), takeTurn (.switch k) s = .next t →
    (t.self :: t.others).Perm (s.self :: s.others) ∧ t.buf = s.buf ∧ t.draws = s.draws ∧ t.schedule = s.schedule

/-- R31: the phase changes in three ways only: a HOST write of CMD takes IDLE to BUSY, the ENGINE's step takes BUSY to
IDLE, and reset takes any phase to IDLE. -/
def Obligations.PhaseChangesOnlyByIssueCompletionReset : Prop :=
  ∀ (u : Turn) (s t : State), (∀ k, u ≠ .switch k) → takeTurn u s = .next t → t.self.engine = s.self.engine ∨
    (u = .host ∧ s.self.engine = .idle ∧ ∃ v rest, s.self.host = .regWrite 32 0x00 v :: rest ∧ t.self.cmd = v ∧
      t.self.engine = .busy (s.self.snapshot v)) ∨
    (u = .engine ∧ s.self.engine.isBusy = true ∧ t.self.engine = .idle) ∨ (u = .reset ∧ t.self.engine = .idle)

/-- R22, R27, R32: nothing the HOST does changes ERR or RESULT; only the completion step and reset write them. -/
def Obligations.HostNeverWritesErrOrResult : Prop :=
  ∀ s t : State, hostStep s = .next t →
    statusErr t.self.status = statusErr s.self.status ∧ t.self.result = s.self.result

/-! ## Whole commands, from the host's accesses to the result (R79) -/

/-- R79, R81, R82, R106: the expansion of ENCODE, run from an IDLE state whose operands meet the issue conditions, ends
after its seven steps with the encoding in the output range. (The order of the agents' steps is the model's schedule
when none is given, log 3.) -/
def Obligations.EncodeExpansionEncodes : Prop :=
  ∀ (s : State) (ib il ob oc : Nat) (rest : List HostOp), s.self.engine = .idle → statusBusy s.self.status = false →
    s.schedule = [] → s.self.host = (HostStmt.encode ib il ob oc).expand ++ rest →
    (HostStmt.encode ib il ob oc).wellFormed = true →
    Accepts s.params.memBytes ib il ob oc (encodedSizeBound il) → Unshared s ib il ob oc →
    ∃ t, Host.Core.run Sys2Proof.core 7 s = .next t ∧ t.self.host = rest ∧ t.self.engine = .idle ∧
      t.self.cmd = 0x0000000C#32 ∧ t.self.status = 0#32 ∧
      t.self.result.toNat = (cobsEncode (s.bytesAt ib il)).length ∧
      t.bytesAt ob t.self.result.toNat = cobsEncode (s.bytesAt ib il) ∧ KeepsOutside s t ob oc ∧ t.others = s.others

/-- R114 at the command level: ENCODE of any input and then DECODE of the RESULT bytes of its output range into a
legal, disjoint buffer ends with ERR = OK, RESULT = the input's length, and the input's bytes in that buffer. (The order
of the agents' steps is the model's schedule when none is given, log 3.) -/
def Obligations.EncodeThenDecodeReturnsTheInput : Prop :=
  ∀ (s : State) (ib il ob oc db dc : Nat) (rest : List HostOp), s.self.engine = .idle →
    statusBusy s.self.status = false → s.schedule = [] →
    s.self.host = (HostStmt.encode ib il ob oc).expand ++
      (HostStmt.decode ob (cobsEncode (s.bytesAt ib il)).length db dc).expand ++ rest →
    (HostStmt.encode ib il ob oc).wellFormed = true → (HostStmt.decode ob 0 db dc).wellFormed = true →
    Accepts s.params.memBytes ib il ob oc (encodedSizeBound il) → Unshared s ib il ob oc →
    Accepts s.params.memBytes ob (cobsEncode (s.bytesAt ib il)).length db dc
      (decodedSizeBound (cobsEncode (s.bytesAt ib il)).length) →
    Unshared s ob (cobsEncode (s.bytesAt ib il)).length db dc →
    ∃ t, Host.Core.run Sys2Proof.core 14 s = .next t ∧ t.self.host = rest ∧ t.self.engine = .idle ∧
      t.self.status = 0#32 ∧ t.self.result.toNat = il ∧ t.bytesAt db il = s.bytesAt ib il

/-- R79, R150, R153: the expansions of ENCBOUND and DECBOUND leave the bound in RESULT after four steps and touch no byte
of BUF. (The order of the agents' steps is the model's schedule when none is given, log 3.) -/
def Obligations.BoundExpansionsGiveTheBound : Prop :=
  ∀ (s : State) (n : Nat) (rest : List HostOp), s.self.engine = .idle → statusBusy s.self.status = false →
    s.schedule = [] → n ≤ 2 ^ 32 - 1 →
    (s.self.host = (HostStmt.encBound n).expand ++ rest → encodedSizeBound n ≤ 2 ^ 32 - 1 →
      ∃ t, Host.Core.run Sys2Proof.core 4 s = .next t ∧ t.self.host = rest ∧ t.self.engine = .idle ∧
        t.self.status = 0#32 ∧ t.self.result.toNat = encodedSizeBound n ∧ t.buf = s.buf) ∧
    (s.self.host = (HostStmt.decBound n).expand ++ rest →
      ∃ t, Host.Core.run Sys2Proof.core 4 s = .next t ∧ t.self.host = rest ∧ t.self.engine = .idle ∧
        t.self.status = 0#32 ∧ t.self.result.toNat = decodedSizeBound n ∧ t.buf = s.buf)

/-- R77: a text that the transcriber takes spells well-formed statements only: every immediate is 0 to 2^32 - 1. -/
def Obligations.TranscribedProgramsAreWellFormed : Prop :=
  ∀ (text : String) (p : List HostStmt), parseProgram text = .ok p → ∀ st ∈ p, st.wellFormed = true

/-! ## What the model chose about reset -/

/-- The model's choices about reset, no rule of the spec: a reset reaches the instance in focus only, and its HOST keeps
the accesses it has still to make and what it has read (log 10); at power-on BUF lists no written byte (log 1). -/
def Obligations.ResetReachesOneInstance : Prop :=
  (∀ s t : State, s.reset1 = .next t → t.others = s.others ∧ t.self.host = s.self.host ∧ t.self.seen = s.self.seen) ∧
    ∀ a, Memory.written State.reset.buf a = none
end

