-- ==== Sys2Proof/Laws/State.lean ====
section
/-!
SUPPORT. One lemma per field per update of the state, so that no later proof unfolds a record update.
-/

namespace Sys2Proof.Machine

variable (s : State)

/-! ### The commit of R82 -/

@[simp] theorem complete_cmd (c : Snapshot) (r : OpResult) : (s.complete c r).self.cmd = s.self.cmd := rfl
@[simp] theorem complete_status (c : Snapshot) (r : OpResult) : (s.complete c r).self.status = statusDone r.err.code := rfl
@[simp] theorem complete_inBase (c : Snapshot) (r : OpResult) : (s.complete c r).self.inBase = s.self.inBase := rfl
@[simp] theorem complete_inLen (c : Snapshot) (r : OpResult) : (s.complete c r).self.inLen = s.self.inLen := rfl
@[simp] theorem complete_outBase (c : Snapshot) (r : OpResult) : (s.complete c r).self.outBase = s.self.outBase := rfl
@[simp] theorem complete_outCap (c : Snapshot) (r : OpResult) : (s.complete c r).self.outCap = s.self.outCap := rfl
@[simp] theorem complete_result (c : Snapshot) (r : OpResult) : (s.complete c r).self.result = (drawWord (drawBytes s.draws r.outfx).2 r.res).1 := rfl
@[simp] theorem complete_engine (c : Snapshot) (r : OpResult) : (s.complete c r).self.engine = .idle := rfl
@[simp] theorem complete_refused (c : Snapshot) (r : OpResult) : (s.complete c r).self.refused = s.self.refused := rfl
@[simp] theorem complete_host (c : Snapshot) (r : OpResult) : (s.complete c r).self.host = s.self.host := rfl
@[simp] theorem complete_seen (c : Snapshot) (r : OpResult) : (s.complete c r).self.seen = s.self.seen := rfl
@[simp] theorem complete_others (c : Snapshot) (r : OpResult) : (s.complete c r).others = s.others := rfl
@[simp] theorem complete_buf (c : Snapshot) (r : OpResult) : (s.complete c r).buf = Memory.writeBytes s.buf c.outBase.toNat (drawBytes s.draws r.outfx).1 := rfl
@[simp] theorem complete_params (c : Snapshot) (r : OpResult) : (s.complete c r).params = s.params := rfl
@[simp] theorem complete_schedule (c : Snapshot) (r : OpResult) : (s.complete c r).schedule = s.schedule := rfl
@[simp] theorem complete_draws (c : Snapshot) (r : OpResult) : (s.complete c r).draws = (drawWord (drawBytes s.draws r.outfx).2 r.res).2 := rfl

/-! ### The end of issue (R81) -/

@[simp] theorem start_cmd (c : Snapshot) : (s.start c).self.cmd = c.cmd := rfl
@[simp] theorem start_status (c : Snapshot) : (s.start c).self.status = statusStart s.self.status := rfl
@[simp] theorem start_inBase (c : Snapshot) : (s.start c).self.inBase = s.self.inBase := rfl
@[simp] theorem start_inLen (c : Snapshot) : (s.start c).self.inLen = s.self.inLen := rfl
@[simp] theorem start_outBase (c : Snapshot) : (s.start c).self.outBase = s.self.outBase := rfl
@[simp] theorem start_outCap (c : Snapshot) : (s.start c).self.outCap = s.self.outCap := rfl
@[simp] theorem start_result (c : Snapshot) : (s.start c).self.result = s.self.result := rfl
@[simp] theorem start_engine (c : Snapshot) : (s.start c).self.engine = .busy c := rfl
@[simp] theorem start_refused (c : Snapshot) : (s.start c).self.refused = s.self.refused := rfl
@[simp] theorem start_host (c : Snapshot) : (s.start c).self.host = s.self.host := rfl
@[simp] theorem start_seen (c : Snapshot) : (s.start c).self.seen = s.self.seen := rfl
@[simp] theorem start_others (c : Snapshot) : (s.start c).others = s.others := rfl
@[simp] theorem start_buf (c : Snapshot) : (s.start c).buf = s.buf := rfl
@[simp] theorem start_params (c : Snapshot) : (s.start c).params = s.params := rfl
@[simp] theorem start_schedule (c : Snapshot) : (s.start c).schedule = s.schedule := rfl
@[simp] theorem start_draws (c : Snapshot) : (s.start c).draws = s.draws := rfl

/-! ### The refused mark (R8) -/

@[simp] theorem markRefused_cmd : (s.markRefused).self.cmd = s.self.cmd := rfl
@[simp] theorem markRefused_status : (s.markRefused).self.status = s.self.status := rfl
@[simp] theorem markRefused_inBase : (s.markRefused).self.inBase = s.self.inBase := rfl
@[simp] theorem markRefused_inLen : (s.markRefused).self.inLen = s.self.inLen := rfl
@[simp] theorem markRefused_outBase : (s.markRefused).self.outBase = s.self.outBase := rfl
@[simp] theorem markRefused_outCap : (s.markRefused).self.outCap = s.self.outCap := rfl
@[simp] theorem markRefused_result : (s.markRefused).self.result = s.self.result := rfl
@[simp] theorem markRefused_engine : (s.markRefused).self.engine = s.self.engine := rfl
@[simp] theorem markRefused_refused : (s.markRefused).self.refused = true := rfl
@[simp] theorem markRefused_host : (s.markRefused).self.host = s.self.host := rfl
@[simp] theorem markRefused_seen : (s.markRefused).self.seen = s.self.seen := rfl
@[simp] theorem markRefused_others : (s.markRefused).others = s.others := rfl
@[simp] theorem markRefused_buf : (s.markRefused).buf = s.buf := rfl
@[simp] theorem markRefused_params : (s.markRefused).params = s.params := rfl
@[simp] theorem markRefused_schedule : (s.markRefused).schedule = s.schedule := rfl
@[simp] theorem markRefused_draws : (s.markRefused).draws = s.draws := rfl

/-! ### The HOST's next access is used up -/

@[simp] theorem popHost_cmd : (s.popHost).self.cmd = s.self.cmd := rfl
@[simp] theorem popHost_status : (s.popHost).self.status = s.self.status := rfl
@[simp] theorem popHost_inBase : (s.popHost).self.inBase = s.self.inBase := rfl
@[simp] theorem popHost_inLen : (s.popHost).self.inLen = s.self.inLen := rfl
@[simp] theorem popHost_outBase : (s.popHost).self.outBase = s.self.outBase := rfl
@[simp] theorem popHost_outCap : (s.popHost).self.outCap = s.self.outCap := rfl
@[simp] theorem popHost_result : (s.popHost).self.result = s.self.result := rfl
@[simp] theorem popHost_engine : (s.popHost).self.engine = s.self.engine := rfl
@[simp] theorem popHost_refused : (s.popHost).self.refused = s.self.refused := rfl
@[simp] theorem popHost_host : (s.popHost).self.host = s.self.host.tail := rfl
@[simp] theorem popHost_seen : (s.popHost).self.seen = s.self.seen := rfl
@[simp] theorem popHost_others : (s.popHost).others = s.others := rfl
@[simp] theorem popHost_buf : (s.popHost).buf = s.buf := rfl
@[simp] theorem popHost_params : (s.popHost).params = s.params := rfl
@[simp] theorem popHost_schedule : (s.popHost).schedule = s.schedule := rfl
@[simp] theorem popHost_draws : (s.popHost).draws = s.draws := rfl

/-! ### The HOST sees a value -/

@[simp] theorem see_cmd (v : Seen) : (s.see v).self.cmd = s.self.cmd := rfl
@[simp] theorem see_status (v : Seen) : (s.see v).self.status = s.self.status := rfl
@[simp] theorem see_inBase (v : Seen) : (s.see v).self.inBase = s.self.inBase := rfl
@[simp] theorem see_inLen (v : Seen) : (s.see v).self.inLen = s.self.inLen := rfl
@[simp] theorem see_outBase (v : Seen) : (s.see v).self.outBase = s.self.outBase := rfl
@[simp] theorem see_outCap (v : Seen) : (s.see v).self.outCap = s.self.outCap := rfl
@[simp] theorem see_result (v : Seen) : (s.see v).self.result = s.self.result := rfl
@[simp] theorem see_engine (v : Seen) : (s.see v).self.engine = s.self.engine := rfl
@[simp] theorem see_refused (v : Seen) : (s.see v).self.refused = s.self.refused := rfl
@[simp] theorem see_host (v : Seen) : (s.see v).self.host = s.self.host := rfl
@[simp] theorem see_seen (v : Seen) : (s.see v).self.seen = v :: s.self.seen := rfl
@[simp] theorem see_others (v : Seen) : (s.see v).others = s.others := rfl
@[simp] theorem see_buf (v : Seen) : (s.see v).buf = s.buf := rfl
@[simp] theorem see_params (v : Seen) : (s.see v).params = s.params := rfl
@[simp] theorem see_schedule (v : Seen) : (s.see v).schedule = s.schedule := rfl
@[simp] theorem see_draws (v : Seen) : (s.see v).draws = s.draws := rfl

/-! ### The next turn is used up -/

@[simp] theorem popTurn_cmd : (s.popTurn).self.cmd = s.self.cmd := rfl
@[simp] theorem popTurn_status : (s.popTurn).self.status = s.self.status := rfl
@[simp] theorem popTurn_inBase : (s.popTurn).self.inBase = s.self.inBase := rfl
@[simp] theorem popTurn_inLen : (s.popTurn).self.inLen = s.self.inLen := rfl
@[simp] theorem popTurn_outBase : (s.popTurn).self.outBase = s.self.outBase := rfl
@[simp] theorem popTurn_outCap : (s.popTurn).self.outCap = s.self.outCap := rfl
@[simp] theorem popTurn_result : (s.popTurn).self.result = s.self.result := rfl
@[simp] theorem popTurn_engine : (s.popTurn).self.engine = s.self.engine := rfl
@[simp] theorem popTurn_refused : (s.popTurn).self.refused = s.self.refused := rfl
@[simp] theorem popTurn_host : (s.popTurn).self.host = s.self.host := rfl
@[simp] theorem popTurn_seen : (s.popTurn).self.seen = s.self.seen := rfl
@[simp] theorem popTurn_others : (s.popTurn).others = s.others := rfl
@[simp] theorem popTurn_buf : (s.popTurn).buf = s.buf := rfl
@[simp] theorem popTurn_params : (s.popTurn).params = s.params := rfl
@[simp] theorem popTurn_schedule : (s.popTurn).schedule = s.schedule.tail := rfl
@[simp] theorem popTurn_draws : (s.popTurn).draws = s.draws := rfl

/-! ### A register read (R28) -/

@[simp] theorem readReg_cmd (r : Reg) : (s.readReg r).self.cmd = s.self.cmd := rfl
@[simp] theorem readReg_status (r : Reg) : (s.readReg r).self.status = s.self.status := rfl
@[simp] theorem readReg_inBase (r : Reg) : (s.readReg r).self.inBase = s.self.inBase := rfl
@[simp] theorem readReg_inLen (r : Reg) : (s.readReg r).self.inLen = s.self.inLen := rfl
@[simp] theorem readReg_outBase (r : Reg) : (s.readReg r).self.outBase = s.self.outBase := rfl
@[simp] theorem readReg_outCap (r : Reg) : (s.readReg r).self.outCap = s.self.outCap := rfl
@[simp] theorem readReg_result (r : Reg) : (s.readReg r).self.result = s.self.result := rfl
@[simp] theorem readReg_engine (r : Reg) : (s.readReg r).self.engine = s.self.engine := rfl
@[simp] theorem readReg_refused (r : Reg) : (s.readReg r).self.refused = s.self.refused := rfl
@[simp] theorem readReg_host (r : Reg) : (s.readReg r).self.host = s.self.host := rfl
@[simp] theorem readReg_seen (r : Reg) : (s.readReg r).self.seen = .reg r (s.regValue r).1 :: s.self.seen := rfl
@[simp] theorem readReg_others (r : Reg) : (s.readReg r).others = s.others := rfl
@[simp] theorem readReg_buf (r : Reg) : (s.readReg r).buf = s.buf := rfl
@[simp] theorem readReg_params (r : Reg) : (s.readReg r).params = s.params := rfl
@[simp] theorem readReg_schedule (r : Reg) : (s.readReg r).schedule = s.schedule := rfl
@[simp] theorem readReg_draws (r : Reg) : (s.readReg r).draws = (s.regValue r).2 := rfl

/-! ### An instance after reset (R190), the snapshot (R30) and the plain store into an operand register -/

variable (x : Codec)

@[simp] theorem resetRegs_cmd : x.resetRegs.cmd = 0 := rfl
@[simp] theorem resetRegs_status : x.resetRegs.status = 0 := rfl
@[simp] theorem resetRegs_inBase : x.resetRegs.inBase = 0 := rfl
@[simp] theorem resetRegs_inLen : x.resetRegs.inLen = 0 := rfl
@[simp] theorem resetRegs_outBase : x.resetRegs.outBase = 0 := rfl
@[simp] theorem resetRegs_outCap : x.resetRegs.outCap = 0 := rfl
@[simp] theorem resetRegs_result : x.resetRegs.result = 0 := rfl
@[simp] theorem resetRegs_engine : x.resetRegs.engine = .idle := rfl
@[simp] theorem resetRegs_refused : x.resetRegs.refused = x.refused := rfl
@[simp] theorem resetRegs_host : x.resetRegs.host = x.host := rfl
@[simp] theorem resetRegs_seen : x.resetRegs.seen = x.seen := rfl
@[simp] theorem snapshot_cmd (w : Word) : (x.snapshot w).cmd = w := rfl
@[simp] theorem snapshot_inBase (w : Word) : (x.snapshot w).inBase = x.inBase := rfl
@[simp] theorem snapshot_inLen (w : Word) : (x.snapshot w).inLen = x.inLen := rfl
@[simp] theorem snapshot_outBase (w : Word) : (x.snapshot w).outBase = x.outBase := rfl
@[simp] theorem snapshot_outCap (w : Word) : (x.snapshot w).outCap = x.outCap := rfl
@[simp] theorem setOperand_cmd (r : Reg) (v : Word) : (x.setOperand r v).cmd = x.cmd := by cases r <;> rfl
@[simp] theorem setOperand_status (r : Reg) (v : Word) : (x.setOperand r v).status = x.status := by cases r <;> rfl
@[simp] theorem setOperand_result (r : Reg) (v : Word) : (x.setOperand r v).result = x.result := by cases r <;> rfl
@[simp] theorem setOperand_engine (r : Reg) (v : Word) : (x.setOperand r v).engine = x.engine := by cases r <;> rfl
@[simp] theorem setOperand_refused (r : Reg) (v : Word) : (x.setOperand r v).refused = x.refused := by cases r <;> rfl
@[simp] theorem setOperand_host (r : Reg) (v : Word) : (x.setOperand r v).host = x.host := by cases r <;> rfl
@[simp] theorem setOperand_seen (r : Reg) (v : Word) : (x.setOperand r v).seen = x.seen := by cases r <;> rfl

@[simp] theorem isBusy_idle : Engine.idle.isBusy = false := rfl
@[simp] theorem isBusy_busy (c : Snapshot) : (Engine.busy c).isBusy = true := rfl

/-- The lasting facts of the state after reset, each the value R190 gives. -/
@[simp] theorem reset_self : State.reset.self = Codec.afterReset := rfl
@[simp] theorem reset_others : State.reset.others = [] := rfl
@[simp] theorem reset_schedule : State.reset.schedule = [] := rfl

end Sys2Proof.Machine
end

