-- ==== Sys2Proof/Laws/Memory.lean ====
section
/-!
SUPPORT. The laws of the buffer memory: a write keeps the canonical form, a read after a write gives the value
written, a write leaves every other byte alone, and the same for a run of bytes.
-/

namespace Sys2Proof.Machine

theorem written_write_same (m : Memory) (a : Nat) (v : Byte) : Memory.written (Memory.write m a v) a = some v := by
  induction m with
  | nil => simp [Memory.write, Memory.written]
  | cons c m ih =>
    obtain ⟨x, b⟩ := c
    simp only [Memory.write]
    split
    · simp [Memory.written]
    · split
      · simp [Memory.written, *]
      · simp [Memory.written, *]

theorem written_write_other {m : Memory} {a x : Nat} (v : Byte) (h : x ≠ a) :
    Memory.written (Memory.write m a v) x = Memory.written m x := by
  induction m with
  | nil => simp [Memory.write, Memory.written, Ne.symm h]
  | cons c m ih =>
    obtain ⟨y, b⟩ := c
    simp only [Memory.write]
    split
    · simp [Memory.written, Ne.symm h]
    · split
      · subst_vars; simp [Memory.written, Ne.symm h]
      · simp [Memory.written, ih]

/-- The addresses of a memory after a write: the old ones and the one written. -/
theorem mem_write_fst {m : Memory} {a : Nat} {v : Byte} {c : Host.Cell} (h : c ∈ Memory.write m a v) :
    c.1 = a ∨ ∃ d ∈ m, d.1 = c.1 := by
  induction m with
  | nil => simp [Memory.write] at h; simp [h]
  | cons e m ih =>
    obtain ⟨y, b⟩ := e
    simp only [Memory.write] at h
    split at h
    · rcases List.mem_cons.1 h with rfl | h
      · exact .inl rfl
      · exact .inr ⟨c, h, rfl⟩
    · split at h
      · rcases List.mem_cons.1 h with rfl | h
        · exact .inl ‹_›
        · exact .inr ⟨c, List.mem_cons_of_mem _ h, rfl⟩
      · rcases List.mem_cons.1 h with rfl | h
        · exact .inr ⟨_, List.mem_cons_self, rfl⟩
        · rcases ih h with h | ⟨d, hd, e⟩
          · exact .inl h
          · exact .inr ⟨d, List.mem_cons_of_mem _ hd, e⟩

theorem sorted_write {m : Memory} (h : Memory.Sorted m) (a : Nat) (v : Byte) : Memory.Sorted (Memory.write m a v) := by
  induction m with
  | nil => simp [Memory.write, Memory.Sorted]
  | cons c m ih =>
    obtain ⟨x, b⟩ := c
    simp only [Memory.Sorted, List.map_cons, List.pairwise_cons] at h
    obtain ⟨hx, hm⟩ := h
    simp only [Memory.write]
    split
    · rename_i hlt
      simp only [Memory.Sorted, List.map_cons, List.pairwise_cons, List.mem_cons]
      refine ⟨?_, hx, hm⟩
      rintro y (rfl | hy)
      · exact hlt
      · exact hlt.trans (hx y hy)
    · split
      · simpa [Memory.Sorted] using ⟨by simpa using hx, hm⟩
      · simp only [Memory.Sorted, List.map_cons, List.pairwise_cons]
        refine ⟨?_, ih hm⟩
        intro y hy
        obtain ⟨d, hd, rfl⟩ := List.mem_map.1 hy
        rcases mem_write_fst hd with e | ⟨d', hd', e⟩
        · omega
        · rw [← e]; exact hx _ (List.mem_map_of_mem hd')

theorem wf_write {n : Nat} {m : Memory} (h : Memory.wf n m) {a : Nat} (ha : a < n) (v : Byte) :
    Memory.wf n (Memory.write m a v) := by
  refine ⟨sorted_write h.1 a v, fun c hc => ?_⟩
  rcases mem_write_fst hc with e | ⟨d, hd, e⟩
  · omega
  · rw [← e]; exact h.2 d hd

theorem sorted_writeBytes {m : Memory} (h : Memory.Sorted m) (base : Nat) (bs : List Byte) :
    Memory.Sorted (Memory.writeBytes m base bs) := by
  induction bs generalizing m base with
  | nil => exact h
  | cons b bs ih => exact ih (sorted_write h base b) (base + 1)

/-- A run of bytes that ends in BUF keeps BUF well-formed. -/
theorem wf_writeBytes {n : Nat} {m : Memory} (h : Memory.wf n m) (base : Nat) (bs : List Byte)
    (hb : base + bs.length ≤ n) : Memory.wf n (Memory.writeBytes m base bs) := by
  induction bs generalizing m base with
  | nil => exact h
  | cons b bs ih =>
    simp only [List.length_cons] at hb
    exact ih (wf_write h (by omega) b) (base + 1) (by omega)

@[simp] theorem byteAt_write_same (m : Memory) (a : Nat) (v : Byte) : Memory.byteAt (Memory.write m a v) a = v := by
  simp [Memory.byteAt, written_write_same]

theorem byteAt_write_other {m : Memory} {a x : Nat} (v : Byte) (h : x ≠ a) :
    Memory.byteAt (Memory.write m a v) x = Memory.byteAt m x := by
  simp [Memory.byteAt, written_write_other v h]

/-- A run of bytes leaves every byte outside it alone. -/
theorem byteAt_writeBytes_outside {m : Memory} {base a : Nat} {bs : List Byte}
    (h : a < base ∨ base + bs.length ≤ a) :
    Memory.byteAt (Memory.writeBytes m base bs) a = Memory.byteAt m a := by
  induction bs generalizing m base with
  | nil => rfl
  | cons b bs ih =>
    simp only [List.length_cons] at h
    rw [Memory.writeBytes, ih (by omega), byteAt_write_other b (by omega)]

/-- Element k of a run of bytes is the byte at base + k. -/
theorem byteAt_writeBytes_inside (m : Memory) (base : Nat) (bs : List Byte) (k : Nat) (h : k < bs.length) :
    Memory.byteAt (Memory.writeBytes m base bs) (base + k) = bs[k] := by
  induction bs generalizing m base k with
  | nil => simp at h
  | cons b bs ih =>
    cases k with
    | zero => rw [Memory.writeBytes, byteAt_writeBytes_outside (by omega)]; simp
    | succ k =>
      have := ih (Memory.write m base b) (base + 1) k (by simpa using h)
      rw [Memory.writeBytes, show base + (k + 1) = base + 1 + k by omega, this]; simp

@[simp] theorem bytesAt_length (m : Memory) (base len : Nat) : (Memory.bytesAt m base len).length = len := by
  induction len generalizing base with
  | zero => rfl
  | succ len ih => simp [Memory.bytesAt, ih]

theorem bytesAt_getElem (m : Memory) (base len k : Nat) (h : k < (Memory.bytesAt m base len).length) :
    (Memory.bytesAt m base len)[k] = Memory.byteAt m (base + k) := by
  induction len generalizing base k with
  | zero => simp [Memory.bytesAt] at h
  | succ len ih =>
    cases k with
    | zero => rfl
    | succ k =>
      have := ih (base + 1) k (by simpa [Memory.bytesAt] using h)
      simp only [Memory.bytesAt, List.getElem_cons_succ, this]
      congr 1; omega

/-- Two memories that agree on a range give the same bytes there. -/
theorem bytesAt_congr {m m' : Memory} {base len : Nat}
    (h : ∀ k, k < len → Memory.byteAt m (base + k) = Memory.byteAt m' (base + k)) :
    Memory.bytesAt m base len = Memory.bytesAt m' base len := by
  apply List.ext_getElem (by simp)
  intro k h1 h2
  rw [bytesAt_getElem, bytesAt_getElem]
  exact h k (by simpa using h1)

/-! ### Free values -/

@[simp] theorem drawBytes_length (n : Nat) (fx : List (Option Byte)) : (drawBytes n fx).1.length = fx.length := by
  induction fx generalizing n with
  | nil => rfl
  | cons f fx ih => cases f <;> simp [drawBytes, ih]

/-- A byte that an outfx gives is the byte that is written. -/
theorem drawBytes_getElem {n : Nat} {fx : List (Option Byte)} {k : Nat} {b : Byte} (h : k < (drawBytes n fx).1.length)
    (hb : fx[k]? = some (some b)) : (drawBytes n fx).1[k] = b := by
  induction fx generalizing n k with
  | nil => simp at hb
  | cons f fx ih =>
    cases k with
    | zero => simp at hb; subst hb; rfl
    | succ k =>
      cases f with
      | none => exact ih (by simpa [drawBytes] using h) (by simpa using hb)
      | some c => exact ih (by simpa [drawBytes] using h) (by simpa using hb)

@[simp] theorem drawWord_some (n : Nat) (v : Word) : drawWord n (some v) = (v, n) := rfl
@[simp] theorem drawBytes_nil (n : Nat) : drawBytes n [] = ([], n) := rfl

end Sys2Proof.Machine
end

