-- ==== Sys2Proof/Laws/Command.lean ====
section
/-!
SUPPORT. What the shared operations of a command can do: its word's fields, its ranges, its issue checks, and the two
steps of `runCommand`, stated once.
-/

namespace Sys2Proof

/-! ### The fields of a command word (R70) -/

theorem cmdOp_cmdWord : ∀ (op : BitVec 2) (ip opr : Bool), cmdOp (cmdWord op ip opr) = op := by decide
theorem cmdInPresent_cmdWord : ∀ (op : BitVec 2) (ip opr : Bool), cmdInPresent (cmdWord op ip opr) = ip := by decide
theorem cmdOutPresent_cmdWord : ∀ (op : BitVec 2) (ip opr : Bool), cmdOutPresent (cmdWord op ip opr) = opr := by decide
theorem cmdReserved_cmdWord : ∀ (op : BitVec 2) (ip opr : Bool), cmdReserved (cmdWord op ip opr) = 0#28 := by decide

/-- The opcode map is injective in the command it gives. -/
theorem opcodeMap_cases (op : BitVec 2) (ip opr : Bool) :
    (op = 0#2 ∧ opcodeMap op ip opr = .encode ip opr) ∨ (op = 1#2 ∧ opcodeMap op ip opr = .decode ip opr) ∨
      (op = 2#2 ∧ opcodeMap op ip opr = .encBound ip opr) ∨ (op = 3#2 ∧ opcodeMap op ip opr = .decBound ip opr) := by
  revert op; decide +revert

namespace Machine

/-! ### Ranges -/

theorem range_has {r : Range} {a : Nat} : r.has a = true ↔ r.base ≤ a ∧ a < r.base + r.len := by
  simp [Range.has]

theorem range_legal {r : Range} {memBytes : Nat} : r.base + r.len ≤ memBytes ↔ r.legal memBytes = true := by
  simp [Range.legal]

@[simp] theorem input_base (c : Snapshot) : c.input.base = c.inBase.toNat := rfl
@[simp] theorem input_len (c : Snapshot) : c.input.len = c.inLen.toNat := rfl
@[simp] theorem output_base (c : Snapshot) : c.output.base = c.outBase.toNat := rfl
@[simp] theorem output_len (c : Snapshot) : c.output.len = c.outCap.toNat := rfl

/-- Two ranges overlap exactly when some byte is in both (R56). -/
theorem overlaps_iff {r q : Range} : r.overlaps q = true ↔ ∃ a, r.has a = true ∧ q.has a = true := by
  simp only [Range.overlaps, Bool.and_eq_true, decide_eq_true_eq, range_has]
  constructor
  · rintro ⟨⟨⟨h1, h2⟩, h3⟩, h4⟩
    exact ⟨max r.base q.base, by omega, by omega⟩
  · rintro ⟨a, h1, h2⟩
    omega

theorem overlaps_comm (r q : Range) : r.overlaps q = q.overlaps r := by
  rw [Bool.eq_iff_iff, overlaps_iff, overlaps_iff]
  exact exists_congr fun a => and_comm

theorem rangesMeet_comm (rs qs : List Range) : rangesMeet rs qs = rangesMeet qs rs := by
  rw [Bool.eq_iff_iff]
  simp only [rangesMeet, List.any_eq_true]
  constructor
  · rintro ⟨r, hr, q, hq, h⟩; exact ⟨q, hq, r, hr, by rwa [overlaps_comm]⟩
  · rintro ⟨q, hq, r, hr, h⟩; exact ⟨r, hr, q, hq, by rwa [overlaps_comm]⟩

/-! ### The issue checks -/

/-- The buffer checks pass exactly under the conditions of R52, R56 and R57. -/
theorem bufferRefusal_eq_none {memBytes : Nat} {c : Snapshot} {bound : Nat} :
    bufferRefusal memBytes c bound = none ↔
      c.inBase.toNat + c.inLen.toNat ≤ memBytes ∧ c.outBase.toNat + c.outCap.toNat ≤ memBytes ∧
        c.input.overlaps c.output = false ∧ bound ≤ c.outCap.toNat := by
  have e1 : c.inBase.toNat + c.inLen.toNat ≤ memBytes ↔ c.input.legal memBytes = true := range_legal (r := c.input)
  have e2 : c.outBase.toNat + c.outCap.toNat ≤ memBytes ↔ c.output.legal memBytes = true := range_legal (r := c.output)
  unfold bufferRefusal
  by_cases h1 : c.input.legal memBytes = true <;> by_cases h2 : c.output.legal memBytes = true <;>
    by_cases h3 : c.input.overlaps c.output = true <;> by_cases h4 : bound ≤ c.outCap.toNat <;>
    simp [e1, e2, h1, h2, h3, h4, ← Nat.not_le]

/-! ### What a command does -/

/-- The operation of a command (R82): its (err, res, outfx) on a snapshot. -/
def operation (i : Instr) (s : State) (c : Snapshot) : OpResult :=
  match i with
  | .encode ip op => if ip && op then encodeOp s c else invalidArgument
  | .decode ip op => if ip && op then decodeOp s c else invalidArgument
  | .encBound _ _ => sizingOp (encodedSizeBound c.inLen.toNat)
  | .decBound _ _ => sizingOp (decodedSizeBound c.inLen.toNat)

theorem exec_eq (i : Instr) (s : State) : exec i s = runCommand i (operation i s) s := by
  cases i <;> rfl

theorem exec_idle {i : Instr} {s : State} (h : s.self.engine = .idle) : exec i s = issue i s := by
  rw [exec_eq, runCommand, h]

theorem exec_busy {i : Instr} {s : State} {c : Snapshot} (h : s.self.engine = .busy c)
    (hc : issueRefusal s.params.memBytes i c = none) : exec i s = .next (s.complete c (operation i s c)) := by
  rw [exec_eq, runCommand, h]
  simp only [hc]

/-- A command either starts, or completes, or is refused: everything `exec` can do. -/
theorem exec_next {i : Instr} {s t : State} (h : exec i s = .next t) :
    (s.self.engine = .idle ∧ issueRefusal s.params.memBytes i (s.self.snapshot (encode i)) = none ∧
        sharesBuffer (s.self.snapshot (encode i)) s.others = false ∧ t = s.start (s.self.snapshot (encode i))) ∨
      ∃ c, s.self.engine = .busy c ∧ issueRefusal s.params.memBytes i c = none ∧
        t = s.complete c (operation i s c) := by
  rw [exec_eq, runCommand] at h
  split at h
  · rename_i he
    refine .inl ⟨he, ?_⟩
    unfold issue at h
    split at h
    · cases h
    · rename_i hr
      split at h
      · cases h
      · rename_i hs
        cases h
        exact ⟨hr, by simpa using hs, rfl⟩
  · rename_i c he
    refine .inr ⟨c, he, ?_⟩
    split at h
    · cases h
    · rename_i hr
      cases h
      exact ⟨hr, rfl⟩

/-- No command ends in a fault (R170). -/
theorem exec_not_fault (i : Instr) (s : State) (r : Fault) : exec i s ≠ .fault r := by
  rw [exec_eq, runCommand]
  split
  · unfold issue
    split
    · simp
    · split <;> simp
  · split <;> simp

/-- The output bytes of an outfx that starts with given bytes, and how many bytes it covers. -/
theorem outputFx_length {c : Snapshot} {bs : List Byte} (h : bs.length ≤ c.outCap.toNat) :
    (outputFx c bs).length = c.outCap.toNat := by
  simp [outputFx]; omega

theorem outputFx_getElem? {c : Snapshot} {bs : List Byte} {k : Nat} (h : k < bs.length) :
    (outputFx c bs)[k]? = some (some bs[k]) := by
  simp [outputFx, List.getElem?_append_left, h]

/-- A commit leaves the bytes outside the output range alone. -/
theorem complete_byteAt_outside {s : State} {c : Snapshot} {r : OpResult} {a : Nat}
    (hl : r.outfx.length ≤ c.outCap.toNat) (ha : c.output.has a = false) :
    (s.complete c r).byteAt a = s.byteAt a := by
  have : ¬ (c.outBase.toNat ≤ a ∧ a < c.outBase.toNat + c.outCap.toNat) := by
    intro h
    have := range_has.2 (show c.output.base ≤ a ∧ a < c.output.base + c.output.len from h)
    rw [ha] at this; cases this
  exact byteAt_writeBytes_outside (by rw [drawBytes_length]; omega)

/-- A commit that gives bytes for the start of the output range writes them there. -/
theorem complete_byteAt_output {s : State} {c : Snapshot} {r : OpResult} {bs : List Byte}
    (hr : r.outfx = outputFx c bs) {k : Nat} (hk : k < bs.length) :
    (s.complete c r).byteAt (c.outBase.toNat + k) = bs[k] := by
  have hlen : k < (drawBytes s.draws r.outfx).1.length := by
    rw [drawBytes_length, hr]; simp [outputFx]; omega
  have := byteAt_writeBytes_inside s.buf c.outBase.toNat (drawBytes s.draws r.outfx).1 k hlen
  rw [State.byteAt, complete_buf, this]
  exact drawBytes_getElem hlen (by rw [hr]; exact outputFx_getElem? hk)

/-- A commit without output bytes leaves BUF alone. -/
theorem complete_buf_nil {s : State} {c : Snapshot} {r : OpResult} (hr : r.outfx = []) : (s.complete c r).buf = s.buf := by
  simp [hr, Memory.writeBytes]

end Machine

end Sys2Proof
end

