-- ==== Sys2Proof/Laws/Codec.lean ====
section
/-!
SUPPORT. The encoder's and the decoder's loops, each said once: the encoder's state stands for closed blocks and one
open block, and the decoder's loop does not depend on the output collected so far or on spare fuel.
-/

namespace Sys2Proof.Machine

/-! ### The encoder (40_encoder.md R103) -/

/-- The state holds the bytes `done` of the closed blocks and the literals `l` of the open one. -/
def EncState.Holds (e : EncState) (done l : List Byte) : Prop := e.out = done ++ 0#8 :: l ∧ e.blockStart = done.length

theorem EncState.start_holds : EncState.start.Holds [] [] := ⟨rfl, rfl⟩

/-- The literal count of the 254 test. -/
theorem EncState.Holds.literals {e : EncState} {d l : List Byte} (h : e.Holds d l) :
    e.cursor - e.blockStart - 1 = l.length := by
  simp [EncState.cursor, h.1, h.2]

/-- Closing the block writes its code byte before its literals. -/
theorem EncState.Holds.close {e : EncState} {d l : List Byte} (h : e.Holds d l) :
    e.closeBlock.out = d ++ BitVec.ofNat 8 (l.length + 1) :: l := by
  simp [EncState.closeBlock, EncState.cursor, h.1, h.2]

theorem EncState.Holds.closeOpen {e : EncState} {d l : List Byte} (h : e.Holds d l) :
    e.closeBlock.openBlock.Holds (d ++ BitVec.ofNat 8 (l.length + 1) :: l) [] := by
  refine ⟨by simp [EncState.openBlock, h.close], ?_⟩
  simp [EncState.openBlock, EncState.cursor, h.close]

theorem EncState.Holds.copy {e : EncState} {d l : List Byte} (h : e.Holds d l) (b : Byte) :
    (e.copy b).Holds d (l ++ [b]) := ⟨by simp [EncState.copy, h.1], h.2⟩

/-- One byte of the payload: the 254 test first (R104), then the zero or the literal. -/
theorem EncState.Holds.byte {e : EncState} {d l : List Byte} (h : e.Holds d l) (b : Byte) :
    (b = 0#8 → l.length = 254 → (e.byte b).Holds (d ++ 0xFF#8 :: l ++ [0x01#8]) []) ∧
    (b = 0#8 → l.length ≠ 254 → (e.byte b).Holds (d ++ BitVec.ofNat 8 (l.length + 1) :: l) []) ∧
    (b ≠ 0#8 → l.length = 254 → (e.byte b).Holds (d ++ 0xFF#8 :: l) [b]) ∧
    (b ≠ 0#8 → l.length ≠ 254 → (e.byte b).Holds d (l ++ [b])) := by
  have full : l.length = 254 → e.test254.Holds (d ++ 0xFF#8 :: l) [] := by
    intro hl
    have := h.closeOpen
    rw [hl] at this
    simpa [EncState.test254, h.literals, hl, Config.maxLiterals] using this
  have open' : l.length ≠ 254 → e.test254.Holds d l := by
    intro hl
    simpa [EncState.test254, h.literals, hl, Config.maxLiterals] using h
  refine ⟨fun hb hl => ?_, fun hb hl => ?_, fun hb hl => ?_, fun hb hl => ?_⟩
  · simpa [EncState.byte, hb] using (full hl).closeOpen
  · simpa [EncState.byte, hb] using (open' hl).closeOpen
  · simpa [EncState.byte, hb] using (full hl).copy b
  · simpa [EncState.byte, hb] using (open' hl).copy b

/-! ### The decoder (41_decoder.md R123) -/

/-- Step 2 does not depend on the output collected so far, but for putting it first. -/
theorem copyLiterals_prefix (n : Nat) (rest z w : List Byte) :
    copyLiterals n rest (w ++ z) = match copyLiterals n rest z with
      | .ok z' r => .ok (w ++ z') r
      | .err e p => .err e (w ++ p) := by
  induction n generalizing rest z with
  | zero => simp [copyLiterals]
  | succ n ih =>
    cases rest with
    | nil => simp [copyLiterals]
    | cons b rest =>
      simp only [copyLiterals]
      split
      · rfl
      · rw [List.append_assoc, ih]

/-- Step 2 on non-zero literals: it copies them all, or runs out of input, or meets the zero behind them (R125). -/
theorem copyLiterals_nonzero (ls rest z : List Byte) (h : 0#8 ∉ ls) :
    copyLiterals ls.length (ls ++ rest) z = .ok (z ++ ls) rest ∧
    (∀ n, copyLiterals (ls.length + n + 1) ls z = .err .truncated (z ++ ls)) ∧
    ∀ n, copyLiterals (ls.length + n + 1) (ls ++ 0#8 :: rest) z = .err .zero (z ++ ls) := by
  induction ls generalizing z with
  | nil => simp [copyLiterals]
  | cons b ls ih =>
    simp only [List.mem_cons, not_or] at h
    have hb : b ≠ 0#8 := fun e => h.1 e.symm
    obtain ⟨i1, i2, i3⟩ := ih (z ++ [b]) h.2
    refine ⟨by simpa [copyLiterals, hb] using i1, fun n => ?_, fun n => ?_⟩
    · have := i2 n
      rw [show (b :: ls).length + n + 1 = (ls.length + n + 1) + 1 by simp; omega]
      simpa [copyLiterals, hb] using this
    · have := i3 n
      rw [show (b :: ls).length + n + 1 = (ls.length + n + 1) + 1 by simp; omega]
      simpa [copyLiterals, hb] using this

/-- The loop puts the output collected so far first and otherwise ignores it. -/
theorem decodeBlocks_prefix (fuel : Nat) (rest z w : List Byte) :
    decodeBlocks fuel rest (w ++ z) = match decodeBlocks fuel rest z with
      | .ok z' => .ok (w ++ z')
      | .err e p => .err e (w ++ p) := by
  induction fuel generalizing rest z with
  | zero => simp [decodeBlocks]
  | succ fuel ih =>
    cases rest with
    | nil => simp [decodeBlocks]
    | cons c rest =>
      simp only [decodeBlocks]
      split
      · rfl
      · rw [copyLiterals_prefix]
        cases copyLiterals (c.toNat - 1) rest z with
        | err e p => rfl
        | ok z' r =>
          cases r with
          | nil => rfl
          | cons b bs =>
            have : impliedZero c (w ++ z') = w ++ impliedZero c z' := by
              unfold impliedZero; split <;> simp
            simp only [this, ih]

/-- Step 2 leaves no more input than it found. -/
theorem copyLiterals_rest {n : Nat} {rest z z' r : List Byte} (h : copyLiterals n rest z = .ok z' r) :
    r.length ≤ rest.length := by
  induction n generalizing rest z with
  | zero => simp [copyLiterals] at h; rw [h.2]
  | succ n ih =>
    cases rest with
    | nil => simp [copyLiterals] at h
    | cons b rest =>
      simp only [copyLiterals] at h
      split at h
      · cases h
      · have := ih h; simp; omega

/-- More fuel than the input has bytes changes nothing. -/
theorem decodeBlocks_fuel {fuel : Nat} {rest : List Byte} (z : List Byte) (h : rest.length ≤ fuel) :
    decodeBlocks fuel rest z = decodeBlocks rest.length rest z := by
  induction fuel using Nat.strong_induction_on generalizing rest z with
  | _ fuel ih =>
    cases rest with
    | nil => cases fuel <;> rfl
    | cons c rest =>
      obtain ⟨fuel, rfl⟩ : ∃ f, fuel = f + 1 := ⟨fuel - 1, by simp at h; omega⟩
      simp only [List.length_cons, decodeBlocks] at h ⊢
      split
      · rfl
      · cases hc : copyLiterals (c.toNat - 1) rest z with
        | err e p => rfl
        | ok z' r =>
          cases r with
          | nil => rfl
          | cons b bs =>
            have hr := copyLiterals_rest hc
            exact (ih fuel (by omega) (rest := b :: bs) (impliedZero c z') (by omega)).trans
              (ih rest.length (by omega) (rest := b :: bs) (impliedZero c z') hr).symm

end Sys2Proof.Machine
end

