-- ==== Sys2Proof/Laws/PerInstr.lean ====
section
/-!
SUPPORT. A law of every instruction as syntax: its word matches exactly its own row of spec/opcode_table.json (the row's
match under its mask 0xFFFFFFF3).
-/

namespace Sys2Proof.Laws

/-- The "match" of the instruction's row. -/
def rowMatch : Instr → Word
  | .encode _ _ => 0x00000000#32
  | .decode _ _ => 0x00000001#32
  | .encBound _ _ => 0x00000002#32
  | .decBound _ _ => 0x00000003#32

/-- A word is in the row's set when it agrees with the row's match under the mask every row has. -/
def inRow (w row : Word) : Prop := w &&& 0xFFFFFFF3#32 = row

/-- The instruction is well-formed and its word lies in its row. -/
def OpcodeRow.Statement (i : Instr) : Prop := i.wellFormed = true ∧ inRow (encode i) (rowMatch i)

theorem OpcodeRow.encode (ip op : Bool) : OpcodeRow.Statement (.encode ip op) := by
  revert ip op; unfold OpcodeRow.Statement inRow; decide

theorem OpcodeRow.decode (ip op : Bool) : OpcodeRow.Statement (.decode ip op) := by
  revert ip op; unfold OpcodeRow.Statement inRow; decide

theorem OpcodeRow.encBound (ip op : Bool) : OpcodeRow.Statement (.encBound ip op) := by
  revert ip op; unfold OpcodeRow.Statement inRow; decide

theorem OpcodeRow.decBound (ip op : Bool) : OpcodeRow.Statement (.decBound ip op) := by
  revert ip op; unfold OpcodeRow.Statement inRow; decide

end Sys2Proof.Laws
end

