-- ==== Sys2Proof/Laws/Step.lean ====
section
/-!
SUPPORT. What one step can do: one lemma per agent, so that no later proof unfolds `step` again.
-/

namespace Sys2Proof.Machine

/-- The ENGINE's step (R82): nothing when IDLE, the decoded command when BUSY. -/
theorem engineStep_next {s t : State} (h : engineStep s = .next t) :
    (s.self.engine = .idle ∧ t = s) ∨
      ∃ c i, s.self.engine = .busy c ∧ decodeWord c.cmd = .ok i ∧ exec i s = .next t := by
  unfold engineStep at h
  split at h
  · rename_i he; cases h; exact .inl ⟨he, rfl⟩
  · rename_i c he
    split at h
    · rename_i i hi; exact .inr ⟨c, i, he, hi, h⟩
    · cases h

/-- A register write that is taken: a command's issue, an ignored write, or an operand register (R21 to R29). -/
theorem writeReg_next {r : Reg} {v : Word} {s t : State} (h : writeReg r v s = .next t) :
    (r = .cmd ∧ s.self.engine = .idle ∧ ∃ i, decodeWord v = .ok i ∧ exec i s = .next t) ∨ t = s ∨
      (s.self.engine = .idle ∧ t = { s with self := s.self.setOperand r v }) := by
  have idle : ∀ e : Engine, ¬ e.isBusy = true → e = .idle := by rintro (_ | _) <;> simp
  cases r
  case cmd =>
    simp only [writeReg, writeCmd] at h
    split at h
    · cases h
    · rename_i hb
      split at h
      · rename_i i hi; exact .inl ⟨rfl, idle _ hb, i, hi, h⟩
      · cases h
  case status => cases h; exact .inr (.inl rfl)
  case result => cases h; exact .inr (.inl rfl)
  all_goals
    simp only [writeReg] at h
    split at h
    · cases h
    · rename_i hb; cases h; exact .inr (.inr ⟨idle _ hb, rfl⟩)

/-- An access that is taken: a value seen, a byte of BUF written, or a register write (R28, R58). -/
theorem access_next {op : HostOp} {s t : State} (h : access op s = .next t) :
    (∃ r, t = s.readReg r) ∨ (∃ a, a < s.params.memBytes ∧ t = s.see (.mem a (s.byteAt a))) ∨
      (∃ a b, a < s.params.memBytes ∧ s.self.protects a = false ∧ (∀ x ∈ s.others, x.protects a = false) ∧
        t = { s with buf := Memory.write s.buf a b }) ∨
      ∃ r v, writeReg r v s = .next t := by
  have free : ∀ {a}, s.byteRefusal a = none → a < s.params.memBytes ∧ s.self.protects a = false ∧
      ∀ x ∈ s.others, x.protects a = false := by
    intro a ha
    unfold State.byteRefusal at ha
    split at ha
    · cases ha
    · split at ha
      · cases ha
      · rename_i h1 h2
        simp only [Bool.or_eq_true, List.any_eq_true, not_or, not_exists, not_and, Bool.not_eq_true] at h2
        exact ⟨by omega, h2.1, h2.2⟩
  cases op with
  | regRead w o =>
    simp only [access] at h
    split at h
    · rename_i r _; cases h; exact .inl ⟨r, rfl⟩
    · cases h
  | regWrite w o v =>
    simp only [access] at h
    split at h
    · rename_i r _; exact .inr (.inr (.inr ⟨r, v, h⟩))
    · cases h
  | memRead a =>
    simp only [access] at h
    split at h
    · cases h
    · rename_i hr; cases h; exact .inr (.inl ⟨a, (free hr).1, rfl⟩)
  | memWrite a b =>
    simp only [access] at h
    split at h
    · cases h
    · rename_i hr; cases h; exact .inr (.inr (.inl ⟨a, b, (free hr).1, (free hr).2.1, (free hr).2.2, rfl⟩))
  | wait => cases h; exact .inl ⟨.status, rfl⟩

/-- The HOST's step: nothing left to do, a poll of `WAIT` that stays, or an access on the state without it. -/
theorem hostStep_next {s t : State} (h : hostStep s = .next t) :
    (s.self.host = [] ∧ t = s) ∨ t = s.readReg .status ∨ ∃ op rest, s.self.host = op :: rest ∧ access op s.popHost = .next t := by
  unfold hostStep at h
  split at h
  · rename_i he; cases h; exact .inl ⟨he, rfl⟩
  · rename_i rest he
    split at h
    · cases h; exact .inr (.inl rfl)
    · exact .inr (.inr ⟨_, rest, he, h⟩)
  · rename_i op rest _ he; exact .inr (.inr ⟨op, rest, he, h⟩)

/-- Reset of the instance in focus (R190, R191). -/
theorem reset1_next {s t : State} (h : s.reset1 = .next t) :
    s.self.engine.abandoned.legal s.params.memBytes = true ∧
      t = { s with
        self := s.self.resetRegs
        buf := Memory.writeBytes s.buf s.self.engine.abandoned.base
          (drawBytes s.draws (List.replicate s.self.engine.abandoned.len none)).1
        draws := (drawBytes s.draws (List.replicate s.self.engine.abandoned.len none)).2 } := by
  unfold State.reset1 at h
  split at h
  · rename_i hl; cases h; exact ⟨hl, rfl⟩
  · cases h

/-- A change of focus permutes the instances and changes nothing else (R183). -/
theorem focus_cases (s : State) (k : Nat) :
    s.focus k = s ∨ ∃ x, s.others[k]? = some x ∧ s.focus k = { s with self := x, others := s.others.set k s.self } := by
  unfold State.focus
  split
  · rename_i x h; exact .inr ⟨x, h, rfl⟩
  · exact .inl rfl

/-- One step, by the agent whose turn it is (R9). -/
theorem step_next {s t : State} (h : step s = .next t) :
    hostStep s.popTurn = .next t ∨ engineStep s.popTurn = .next t ∨ s.popTurn.reset1 = .next t ∨
      ∃ k, t = s.popTurn.focus k := by
  unfold step takeTurn at h
  split at h
  · exact .inl h
  · exact .inr (.inl h)
  · exact .inr (.inr (.inl h))
  · cases h; exact .inr (.inr (.inr ⟨_, rfl⟩))

end Sys2Proof.Machine
end

