-- ==== Sys2Proof/Tests/Slice0.lean ====
section
/-!
SUPPORT. The model's own tests. Expected values are those of spec/95_test_vectors.md (E, D, B, K rows) and of the rules
named. A test named `test_witness_<Name>` shows values that meet the hypotheses of the obligation `<Name>`.
-/

namespace Sys2Proof.Tests

open Sys2Proof.Machine Sys2Proof.Claims

/-! ## Small states -/

/-- After reset, with the eight bytes 11 22 00 33 05 11 22 00 at address 0. -/
def base : State :=
  { State.reset with
    buf := [(0, 0x11#8), (1, 0x22#8), (2, 0x00#8), (3, 0x33#8), (4, 0x05#8), (5, 0x11#8), (6, 0x22#8), (7, 0x00#8)] }

/-- `base` with the operand registers written. -/
def ops (ib il ob oc : Word) : State :=
  { base with self := { base.self with inBase := ib, inLen := il, outBase := ob, outCap := oc } }

/-- The command word `w` in flight. -/
def busy (w : Word) (s : State) : State := s.start (s.self.snapshot w)

/-- The HOST is about to make the accesses `l`. -/
def hosting (l : List HostOp) (s : State) : State := { s with self := { s.self with host := l } }

/-- A second instance, whose ENCODE of [0x200, 0x204) into [0x210, 0x215) is in flight. -/
def second : Codec := (busy 0x0000000C#32 (ops 0x200#32 4#32 0x210#32 5#32)).self

/-- The outcome is a next state with the given property. -/
def nextIs (p : State → Bool) : Host.Outcome State Fault Refusal → Bool
  | .next t => p t
  | .fault _ => false
  | .refused _ => false

/-- The outcome is the given refusal. -/
def refuses (r : Refusal) : Host.Outcome State Fault Refusal → Bool
  | .next _ => false
  | .fault _ => false
  | .refused q => q = r

/-- A next state with these STATUS and RESULT. -/
def gives (status result : Word) : Host.Outcome State Fault Refusal → Bool :=
  nextIs fun t => t.self.status = status && t.self.result = result && t.self.engine = .idle

/-- Two BUSY instances whose protected ranges are disjoint. -/
def pair : State := { busy 0x0000000C#32 (ops 0x100#32 4#32 0x110#32 5#32) with others := [second] }

/-! ## Ill-formed words and statements are refused -/

/-- R73: each reserved bit makes a word illegal, the lowest and the highest among them. -/
theorem test_reserved_bits_illformed :
    Word.legalCommand 0x00000010#32 = false ∧ Word.legalCommand 0x80000000#32 = false ∧
      Word.legalCommand 0x8000000C#32 = false ∧ Word.legalCommand 0x0000000F#32 = true := by decide

/-- K10, K11: a CMD write of such a word is refused, and CMD stays 0. -/
theorem test_reserved_write_refused :
    refuses .reservedCmdBits (access (.regWrite 32 0x00 0x00000010#32) base) = true ∧
      refuses .reservedCmdBits (access (.regWrite 32 0x00 0x8000000C#32) base) = true := by decide

/-- R77, R78: immediates above 2^32 - 1, a MEMW without a byte and a MEMW of 256 are no statements. -/
theorem test_statements_illformed :
    (HostStmt.wr .inLen (2 ^ 32)).wellFormed = false ∧ (HostStmt.memw 0 []).wellFormed = false ∧
      (HostStmt.memw 0 [256]).wellFormed = false ∧ (HostStmt.memr (2 ^ 32) 1).wellFormed = false ∧
      (HostStmt.encode 0 0 0 (2 ^ 32)).wellFormed = false ∧ (HostStmt.decode (2 ^ 32) 0 0 0).wellFormed = false ∧
      (HostStmt.encBound (2 ^ 32)).wellFormed = false ∧ (HostStmt.decBound (2 ^ 32)).wellFormed = false ∧
      (HostStmt.decBound (2 ^ 32 - 1)).wellFormed = true := by decide

/-! ## Decoding: words written out bit by bit from R70 and R71 -/

/-- ENCODE: reserved zeros, OUT_PRESENT, IN_PRESENT, OP = 00. -/
theorem test_decode_encode : decodeWord 0b00000000000000000000000000001000#32 = .ok (.encode false true) ∧
    decodeWord 0b00000000000000000000000000000100#32 = .ok (.encode true false) := ⟨rfl, rfl⟩

/-- DECODE: OP = 01. -/
theorem test_decode_decode : decodeWord 0b00000000000000000000000000001101#32 = .ok (.decode true true) ∧
    decodeWord 0b00000000000000000000000000000101#32 = .ok (.decode true false) := ⟨rfl, rfl⟩

/-- ENC_BOUND: OP = 10. -/
theorem test_decode_encBound : decodeWord 0b00000000000000000000000000000010#32 = .ok (.encBound false false) ∧
    decodeWord 0b00000000000000000000000000001010#32 = .ok (.encBound false true) := ⟨rfl, rfl⟩

/-- DEC_BOUND: OP = 11. -/
theorem test_decode_decBound : decodeWord 0b00000000000000000000000000000011#32 = .ok (.decBound false false) ∧
    decodeWord 0b00000000000000000000000000001011#32 = .ok (.decBound false true) := ⟨rfl, rfl⟩

/-- R80: the spellings of 0x0000000C, 0x00000004, 0x00000009 and 0x00000003. -/
theorem test_spelling : (Instr.encode true true).spell = "ENCODE in,out" ∧ (Instr.encode true false).spell = "ENCODE in" ∧
    (Instr.decode false true).spell = "DECODE out" ∧ (Instr.decBound false false).spell = "DEC_BOUND" := by decide

/-! ## The transforms (95_test_vectors.md sections 2 and 3) -/

/-- E1, E8, E9, E12, E13. -/
theorem test_encode_short : cobsEncode [] = [0x01#8] ∧
    cobsEncode [0x11#8, 0x00#8] = [0x02#8, 0x11#8, 0x01#8] ∧ cobsEncode [0x00#8, 0x11#8] = [0x01#8, 0x02#8, 0x11#8] ∧
    cobsEncode [0x11#8, 0x00#8, 0x00#8, 0x22#8] = [0x02#8, 0x11#8, 0x01#8, 0x02#8, 0x22#8] ∧
    cobsEncode [0x11#8, 0x22#8, 0x00#8, 0x33#8] = [0x03#8, 0x11#8, 0x22#8, 0x02#8, 0x33#8] := by decide

/-- E15, E19: the 254-literal test comes before the byte, and only while a byte remains (90_conflicts.md C1). -/
theorem test_encode_full_block :
    cobsEncode (List.replicate 254 0xAA#8) = 0xFF#8 :: List.replicate 254 0xAA#8 ∧
      cobsEncode (List.replicate 254 0xAA#8 ++ [0x00#8]) =
        0xFF#8 :: (List.replicate 254 0xAA#8 ++ [0x01#8, 0x01#8]) := by decide +kernel

/-- D5, D12, D13, D14, D18, with the partial output where R123 gives one. -/
theorem test_decode_short : cobsDecode [0x01#8, 0x00#8] = .err .zero [0x00#8] ∧
    cobsDecode [0x03#8, 0x11#8, 0x22#8, 0x02#8, 0x33#8] = .ok [0x11#8, 0x22#8, 0x00#8, 0x33#8] ∧
    cobsDecode [0x05#8, 0x11#8, 0x22#8] = .err .truncated [0x11#8, 0x22#8] ∧
    cobsDecode [0x05#8, 0x00#8] = .err .zero [] ∧ cobsDecode [0x01#8, 0x02#8] = .err .truncated [0x00#8] := by decide

/-- D26, D28: no implied zero after code 0xFF, one after 0xFE. -/
theorem test_decode_full_block :
    cobsDecode (0xFF#8 :: (List.replicate 254 0xAA#8 ++ [0x01#8, 0x01#8])) =
        .ok (List.replicate 254 0xAA#8 ++ [0x00#8]) ∧
      cobsDecode (0xFE#8 :: (List.replicate 253 0xAA#8 ++ [0x02#8, 0xBB#8])) =
        .ok (List.replicate 253 0xAA#8 ++ [0x00#8, 0xBB#8]) := by decide +kernel

/-- B1, B4, B5, B6, B9; B12, B14, B18. -/
theorem test_sizing : encodedSizeBound 0 = 1 ∧ encodedSizeBound 254 = 255 ∧ encodedSizeBound 255 = 257 ∧
    encodedSizeBound 300 = 302 ∧ encodedSizeBound 0xFEFEFEFE = 0xFFFFFFFF ∧ decodedSizeBound 0 = 0 ∧
    decodedSizeBound 2 = 1 ∧ decodedSizeBound 0xFFFFFFFF = 0xFFFFFFFE := by decide

/-! ## The commands, one step each -/

/-- E13 at the command level: ENCODE of [0, 4) into [0x10, 0x15). -/
theorem test_encode_completes :
    nextIs (fun t => t.self.status = 0#32 && t.self.result = 5#32 &&
        t.bytesAt 0x10 5 = [0x03#8, 0x11#8, 0x22#8, 0x02#8, 0x33#8] && t.bytesAt 0 4 = base.bytesAt 0 4)
      (exec (.encode true true) (busy 0x0000000C#32 (ops 0#32 4#32 0x10#32 5#32))) = true := by decide

/-- K7, K15: a capacity of 0 and ranges that share one byte are refused. -/
theorem test_encode_refused : refuses .capacity (access (.regWrite 32 0x00 0x0000000C#32) base) = true ∧
    refuses .aliasing (exec (.encode true true) (ops 0x100#32 4#32 0x103#32 5#32)) = true ∧
    refuses .inputRange (exec (.encode true true) (ops 0x3FE#32 4#32 0#32 5#32)) = true := by decide

/-- K20: DECODE of [05 11 22] at 4 ends with ERR = 3; K8: DECODE of nothing with OUT_CAP = 0 ends with ERR = 0. -/
theorem test_decode_completes :
    nextIs (fun t => t.self.status = 3#32 && t.self.engine = .idle)
        (exec (.decode true true) (busy 0x0000000D#32 (ops 4#32 3#32 0x20#32 2#32))) = true ∧
      gives 0#32 0#32 (exec (.decode true true) (busy 0x0000000D#32 base)) = true := by decide

/-- K9: zero-length ranges at MEM_BYTES are accepted; K19: a capacity of 1 for three bytes is refused. -/
theorem test_decode_issue : nextIs (fun t => t.self.status = 0x10#32 && t.self.cmd = 0xD#32)
      (exec (.decode true true) (ops 0x400#32 0#32 0x400#32 0#32)) = true ∧
    refuses .capacity (exec (.decode true true) (ops 0x100#32 3#32 0x200#32 1#32)) = true := by decide

/-- K5: an absent buffer completes with ERR = 1 whatever the operands. -/
theorem test_absent_buffer : nextIs (fun t => t.self.status = 1#32 && t.buf = base.buf)
      (exec (.encode false false) (busy 0#32 (ops 0x100#32 0x1000#32 0#32 0x1000#32))) = true ∧
    nextIs (fun t => t.self.status = 1#32 && t.buf = base.buf)
      (exec (.decode false true) (busy 0x00000009#32 base)) = true := by decide

/-- K12: presence bits do not matter. -/
theorem test_encBound_completes :
    gives 0#32 255#32 (exec (.encBound true true) (busy 0x0000000E#32 (ops 0#32 254#32 0#32 0#32))) = true := by decide

/-- B10, K13: the bound that does not fit is refused at issue. -/
theorem test_encBound_refused :
    refuses .boundOverflow (exec (.encBound false false) (ops 0#32 0xFEFEFEFF#32 0#32 0#32)) = true ∧
      nextIs (fun t => t.self.engine.isBusy) (exec (.encBound false false) (ops 0#32 0xFEFEFEFE#32 0#32 0#32)) = true := by
  decide

/-- K14, B18; B12. -/
theorem test_decBound_completes :
    gives 0#32 0xFFFFFFFE#32
        (exec (.decBound false false) (busy 0x00000003#32 (ops 0#32 0xFFFFFFFF#32 0#32 0#32))) = true ∧
      gives 0#32 0#32 (exec (.decBound false true) (busy 0x0000000B#32 base)) = true := by decide

/-! ## The HOST, reset and steps -/

/-- The busy window of K21 to K31. -/
def window : State := busy 0x0000000C#32 (ops 0x100#32 4#32 0x200#32 5#32)

/-- K24, K25, K27, K28: refused. -/
theorem test_busy_window_refused : refuses .cmdWhileBusy (access (.regWrite 32 0x00 0x0000000D#32) window) = true ∧
    refuses .operandWriteWhileBusy (access (.regWrite 32 0x14 9#32) window) = true ∧
    refuses .protectedByte (access (.memRead 0x102) window) = true ∧
    refuses .protectedByte (access (.memWrite 0x204 0x55#8) window) = true := by decide

/-- K23, K26, K29: allowed. -/
theorem test_busy_window_allowed :
    nextIs (fun t => t.self.seen = [.reg .inLen 4#32]) (access (.regRead 32 0x0C) window) = true ∧
      nextIs (fun t => t = window) (access (.regWrite 32 0x04 0#32) window) = true ∧
      nextIs (fun t => t.byteAt 0x300 = 0x55#8) (access (.memWrite 0x300 0x55#8) window) = true := by decide

/-- K30: another width, an unaligned offset and an offset past the window. -/
theorem test_register_access_refused : refuses .registerAccess (access (.regRead 8 0x04) window) = true ∧
    refuses .registerAccess (access (.regRead 32 0x1C) window) = true ∧
    refuses .registerAccess (access (.regRead 32 0x06) window) = true := by decide

/-- K31: reset abandons the command. -/
theorem test_reset_abandons : nextIs (fun t => t.self = Codec.afterReset && t.bytesAt 0 8 = base.bytesAt 0 8 &&
      (Memory.written t.buf 0x204).isSome && Memory.written t.buf 0x205 = none)
    window.reset1 = true := by decide

/-- R62: a command whose range meets a BUSY instance's protected range is refused, and so is a HOST access to it. -/
theorem test_instances_share_buf :
    refuses .sharedBuffer (exec (.encode true true) { ops 0#32 4#32 0x20F#32 5#32 with others := [second] }) = true ∧
      refuses .protectedByte (access (.memRead 0x203) { base with others := [second] }) = true := by decide

/-- R82: a placed command word runs as the first step after reset. -/
theorem test_placed_word_runs : nextIs (fun t => t.self.status = 1#32) (step (State.reset.withFetchWord 32 0x0)) = true ∧
    gives 0#32 1#32 (step (State.reset.withFetchWord 32 0x2)) = true := by decide

/-- R79, R80: the expansions write the canonical words. -/
theorem test_expansions : (HostStmt.encode 1 2 3 4).expand =
      [.regWrite 32 0x08 1#32, .regWrite 32 0x0C 2#32, .regWrite 32 0x10 3#32, .regWrite 32 0x14 4#32,
        .regWrite 32 0x00 0x0000000C#32, .wait] ∧
    (HostStmt.decBound 5).expand = [.regWrite 32 0x0C 5#32, .regWrite 32 0x00 0x00000003#32, .wait] := by decide

/-- R78, R77: text is read statement by statement, and refused by name and line. -/
theorem test_transcriber :
    parseProgram "MEMW 0x100, 0x11, 34 ; two bytes\n\nENCBOUND 4\nWAIT" =
        .ok [.memw 0x100 [0x11, 34], .encBound 4, .wait] ∧
      parseProgram "WAIT\nWR FOO, 1" = .error ⟨2, .unknownRegister⟩ ∧
      parseProgram "DECBOUND 4294967296" = .error ⟨1, .badImmediate⟩ := by decide +kernel

/-! ## Witnesses: the hypotheses of the obligations can be met -/

theorem test_witness_CommandWordsHaveOneMeaning : decodeWord 0x0000000F#32 = .ok (.decBound true true) ∧
    (0x0000000F#32).toNat < 16 ∧ ¬ (0x00000010#32).toNat < 16 := ⟨rfl, by decide, by decide⟩

theorem test_witness_ReservedCommandWordIsRefused :
    cmdReserved 0x00000010#32 ≠ 0#28 ∧ cmdReserved 0x80000000#32 ≠ 0#28 ∧ cmdReserved 0x0000000F#32 = 0#28 := by decide

theorem test_witness_EncodedSizeBoundIsTheFormula : encodedSizeBound 0 = 1 ∧ 1 ≤ 1 ∧ encodedSizeBound 1 = 2 ∧
    encodedSizeBound 255 = 255 + 1 + (255 - 1) / 254 := by decide

theorem test_witness_SizingFunctionsAreMonotone : 254 ≤ 255 ∧ encodedSizeBound 254 ≤ encodedSizeBound 255 := by decide

/-- IDLE and BUSY, at the largest operand accepted. -/
theorem test_witness_EncBoundIssuesAndCompletes : (ops 0#32 0xFEFEFEFE#32 0#32 0#32).self.engine = .idle ∧
    encodedSizeBound (0xFEFEFEFE#32).toNat ≤ 2 ^ 32 - 1 ∧
    (busy 0x00000002#32 (ops 0#32 0xFEFEFEFE#32 0#32 0#32)).self.engine.isBusy = true ∧ cmdOp 0x00000002#32 = 2#2 := by
  decide

/-- The ranges [0, 4) and [0x10, 0x15) meet every issue condition of an ENCODE of four bytes. -/
theorem accepts_encode : Accepts 0x400 0 4 0x10 5 (encodedSizeBound 4) :=
  ⟨by decide, by decide, by unfold InRange; omega, by decide⟩

/-- The ranges [0x10, 0x15) and [0x20, 0x24) meet every issue condition of a DECODE of five bytes. -/
theorem accepts_decode : Accepts 0x400 0x10 5 0x20 4 (decodedSizeBound 5) :=
  ⟨by decide, by decide, by unfold InRange; omega, by decide⟩

/-- Two zero-length ranges at MEM_BYTES meet every issue condition of a DECODE of nothing (K9). -/
theorem accepts_empty : Accepts 0x400 0x400 0 0x400 0 (decodedSizeBound 0) :=
  ⟨by decide, by decide, by unfold InRange; omega, by decide⟩

theorem test_witness_EncBoundOverflowIsRefused : (ops 0#32 0xFEFEFEFF#32 0#32 0#32).self.engine = .idle ∧
    (0xFEFEFEFF#32).toNat > 0xFEFEFEFE ∧
    SnapshotAccepts 0x400 ((ops 0#32 4#32 0x10#32 5#32).self.snapshot 0xC#32) (encodedSizeBound 4) :=
  ⟨rfl, by decide, accepts_encode⟩

theorem test_witness_DecBoundIssuesAndCompletes : base.self.engine = .idle ∧
    (busy 0x00000003#32 (ops 0#32 0xFFFFFFFF#32 0#32 0#32)).self.engine.isBusy = true ∧ cmdOp 0x00000003#32 = 3#2 := by
  decide

theorem test_witness_EncodedLengthMeetsTheBound : 1 ≤ [0x11#8].length ∧ (cobsEncode [0x11#8]).length = 2 ∧
    ([] : List Byte).length = 0 ∧ firings (List.replicate 255 0xAA#8) = 1 := by decide +kernel

theorem test_witness_EncodedBoundIsReached : 0#8 ∉ [0x11#8, 0xFF#8] ∧
    (cobsEncode (List.replicate 254 0#8)).length = encodedSizeBound 254 ∧
    (cobsEncode (List.replicate 255 0#8)).length = 256 ∧ encodedSizeBound 255 = 257 := by decide +kernel

/-- Each clause: a whole block, codes 1 and 0xFE; a short input; a zero among the literals. -/
theorem test_witness_DecoderBlockLaws : (0x02#8 : Byte) ≠ 0#8 ∧ 0#8 ∉ [0x11#8] ∧
    [0x11#8].length + 1 = (0x02#8).toNat ∧ ([] : List Byte).length + 1 = (0x01#8).toNat ∧
    (List.replicate 254 0xAA#8).length + 1 = (0xFF#8).toNat ∧ [0x11#8].length + 1 < (0x05#8).toNat := by decide +kernel

theorem test_witness_DecodedLengthMeetsTheBound : 1 ≤ [0x01#8].length ∧ cobsDecode [0x01#8] = .ok [] := by decide

theorem test_witness_ReencodingGivesBackEncoderOutputsOnly :
    cobsDecode [0x02#8, 0x11#8] = .ok [0x11#8] ∧ cobsEncode [0x11#8] = [0x02#8, 0x11#8] := by decide

/-- D14, D15. -/
theorem test_witness_ZeroErrorIgnoresWhatFollows :
    cobsDecode [0x05#8, 0x00#8] = .err .zero [] ∧ cobsDecode [0x05#8, 0x11#8, 0x00#8] = .err .zero [0x11#8] := by decide

/-- One clause with the conditions met and another BUSY instance present, one with a capacity one too small. -/
theorem test_witness_EncodeIssuesUnderItsConditions :
    (ops 0#32 4#32 0x10#32 5#32).self.engine = .idle ∧
      MayIssue { ops 0#32 4#32 0x10#32 5#32 with others := [second] } (encodedSizeBound 4) ∧
      ¬ MayIssue (ops 0#32 4#32 0x10#32 4#32) (encodedSizeBound 4) := by
  refine ⟨rfl, ⟨accepts_encode, ?_⟩, fun h => absurd h.1.2.2.2 (by decide)⟩
  intro y hy a ha
  simp only [List.mem_singleton] at hy
  subst hy
  have e : second.engine.protectedRanges = [⟨0x200, 4⟩, ⟨0x210, 5⟩] := by decide
  simp only [InRange, ops, base, State.reset, BitVec.toNat_ofNat] at ha
  simp only [Codec.protects, e, List.any_cons, List.any_nil, Range.has, Bool.or_false, Bool.or_eq_false_iff,
    Bool.and_eq_false_iff, decide_eq_false_iff_not]
  omega

/-- K9 and K19. -/
theorem test_witness_DecodeIssuesUnderItsConditions : (ops 0x400#32 0#32 0x400#32 0#32).self.engine = .idle ∧
    MayIssue (ops 0x400#32 0#32 0x400#32 0#32) (decodedSizeBound 0) ∧
    ¬ MayIssue (ops 0x100#32 3#32 0x200#32 1#32) (decodedSizeBound 3) :=
  ⟨rfl, ⟨accepts_empty, fun _ h => absurd h (by simp [ops, base, State.reset])⟩,
    fun h => absurd h.1.2.2.2 (by decide)⟩

/-- A command with both buffers, one with an absent buffer, one sizing command. -/
theorem test_witness_ProtectedRangeIsBothBuffers :
    decodeWord (base.self.snapshot 0x0000000C#32).cmd = .ok (.encode true true) ∧
      (busy 0x0000000C#32 base).self.engine = .busy (base.self.snapshot 0x0000000C#32) ∧
      decodeWord (base.self.snapshot 0x00000005#32).cmd = .ok (.decode true false) ∧ (true && false) = false ∧
      decodeWord (base.self.snapshot 0x0000000E#32).cmd = .ok (.encBound true true) := ⟨rfl, rfl, rfl, rfl, rfl⟩

/-- E13 and its snapshot. -/
theorem test_witness_EncodeCompletes :
    (busy 0x0000000C#32 (ops 0#32 4#32 0x10#32 5#32)).self.engine =
        .busy ((ops 0#32 4#32 0x10#32 5#32).self.snapshot 0x0000000C#32) ∧
      SnapshotAccepts 0x400 ((ops 0#32 4#32 0x10#32 5#32).self.snapshot 0x0000000C#32) (encodedSizeBound 4) :=
  ⟨rfl, accepts_encode⟩

/-- IDLE and BUSY with an absent buffer. -/
theorem test_witness_EncodeWithAbsentBufferIsInvalidArgument : (true && false) = false ∧ base.self.engine = .idle ∧
    (busy 0x00000004#32 base).self.engine = .busy (base.self.snapshot 0x00000004#32) := ⟨rfl, rfl, rfl⟩

theorem test_witness_DecodeWithAbsentBufferIsInvalidArgument : (false && true) = false ∧ base.self.engine = .idle ∧
    (busy 0x00000009#32 base).self.engine = .busy (base.self.snapshot 0x00000009#32) := ⟨rfl, rfl, rfl⟩

/-- A state whose bytes at 0x10 are the encoding of E13. -/
def encoded : State :=
  { ops 0x10#32 5#32 0x20#32 4#32 with
    buf := [(0x10, 0x03#8), (0x11, 0x11#8), (0x12, 0x22#8), (0x13, 0x02#8), (0x14, 0x33#8)] }

/-- D12. -/
theorem test_witness_DecodeCompletes :
    (busy 0x0000000D#32 encoded).self.engine = .busy (encoded.self.snapshot 0x0000000D#32) ∧
      SnapshotAccepts 0x400 (encoded.self.snapshot 0x0000000D#32) (decodedSizeBound 5) ∧
      cobsDecode ((busy 0x0000000D#32 encoded).bytesAt 0x10 5) = .ok [0x11#8, 0x22#8, 0x00#8, 0x33#8] :=
  ⟨rfl, accepts_decode, by decide⟩

/-- D13, and D3 on the zero byte at 2. -/
theorem test_witness_DecodeReportsDataErrors :
    (busy 0x0000000D#32 (ops 4#32 3#32 0x20#32 2#32)).self.engine =
        .busy ((ops 4#32 3#32 0x20#32 2#32).self.snapshot 0x0000000D#32) ∧
      SnapshotAccepts 0x400 ((ops 4#32 3#32 0x20#32 2#32).self.snapshot 0x0000000D#32) (decodedSizeBound 3) ∧
      cobsDecode (base.bytesAt 4 3) = .err .truncated [0x11#8, 0x22#8] ∧ cobsDecode (base.bytesAt 2 1) = .err .zero [] := by
  refine ⟨rfl, ⟨by decide, by decide, ?_, by decide⟩, by decide, by decide⟩
  intro a
  simp only [InRange, ops, Codec.snapshot, BitVec.toNat_ofNat]
  omega

/-- K9. -/
theorem test_witness_DecodeOfNothingSucceeds :
    (busy 0x0000000D#32 (ops 0x400#32 0#32 0x400#32 0#32)).self.engine =
        .busy ((ops 0x400#32 0#32 0x400#32 0#32).self.snapshot 0x0000000D#32) ∧
      (0x400#32).toNat ≤ 0x400 ∧ (0x400#32).toNat + (0#32).toNat ≤ 0x400 := ⟨rfl, by decide, by decide⟩

/-- Every command completes from some BUSY state, with and without buffers. -/
theorem test_witness_CompletionFrame : nextIs (fun _ => true)
      (exec (.encode true true) (busy 0x0000000C#32 (ops 0#32 4#32 0x10#32 5#32))) = true ∧
    nextIs (fun _ => true) (exec (.decode true true) (busy 0x0000000D#32 encoded)) = true ∧
    nextIs (fun _ => true) (exec (.encode true false) (busy 0x00000004#32 base)) = true ∧
    nextIs (fun _ => true) (exec (.encBound false false) (busy 0x00000002#32 base)) = true ∧
    nextIs (fun _ => true) (exec (.decBound false false) (busy 0x00000003#32 base)) = true := by decide

/-- Every command is issued from some IDLE state. -/
theorem test_witness_IssueFrame : base.self.engine = .idle ∧
    nextIs (fun _ => true) (exec (.encode true true) (ops 0#32 4#32 0x10#32 5#32)) = true ∧
    nextIs (fun _ => true) (exec (.decode true true) encoded) = true ∧
    nextIs (fun _ => true) (exec (.encBound false false) base) = true ∧
    nextIs (fun _ => true) (exec (.decBound false false) base) = true := by decide

/-- Address 0 is in the input range of a command that uses its buffers, and 0x15 is outside its output range. -/
theorem test_witness_InputIsNeverChanged : InRange 0 4 0 ∧ ¬ InRange 0x10 5 0x15 ∧
    (ops 0#32 4#32 0x10#32 5#32).self.engine = .idle ∧ nextIs (fun t => t.bytesAt 0 4 = base.bytesAt 0 4)
      (exec (.encode true true) (busy 0x0000000C#32 (ops 0#32 4#32 0x10#32 5#32))) = true := by
  unfold InRange; decide

/-- Two states that agree on the snapshot and the input only: another byte, RESULT and draw counter. -/
theorem test_witness_CommandsAreIndependent :
    ∃ s s' : State, s' ≠ s ∧ s.self.engine = s'.self.engine ∧ s.self.engine.isBusy = true ∧
      (∀ a, InRange 0 4 a → s'.byteAt a = s.byteAt a) ∧ nextIs (fun t => t.self.status = 0#32) (exec (.encode true true) s) = true ∧
      nextIs (fun t => t.self.status = 0#32) (exec (.encode true true) s') = true := by
  refine ⟨busy 0x0000000C#32 (ops 0#32 4#32 0x10#32 5#32),
    { busy 0x0000000C#32 (ops 0#32 4#32 0x10#32 5#32) with
      draws := 9, buf := Memory.write base.buf 0x30 0x77#8 }, by decide, rfl, rfl, ?_, by decide, by decide⟩
  rintro a ⟨-, h⟩
  simp only [Nat.zero_add] at h
  interval_cases a <;> rfl

/-- Each refused kind at its boundary, and the last register. -/
theorem test_witness_RegisterWindowAccess : 8 ≠ 32 ∧ 0x19 % 4 ≠ 0 ∧ 0x1C ≤ 0x1C ∧ 0x18 % 4 = 0 ∧ 0x18 < 0x1C ∧
    regAt 32 0x18 = some .result := by decide

theorem test_witness_IdleReadsReturnTheRegister : base.self.engine = .idle := rfl

theorem test_witness_IdleOperandWrites : base.self.engine = .idle := rfl

/-- The first and last bytes of the protected range. -/
theorem test_witness_BusyWindow :
    window.self.engine = .busy ((ops 0x100#32 4#32 0x200#32 5#32).self.snapshot 0x0000000C#32) ∧
      window.self.protects 0x100 = true ∧ window.self.protects 0x204 = true ∧ window.self.protects 0x205 = false := by
  decide

/-- The last byte of BUF, the first address past it, and a protected byte of another instance. -/
theorem test_witness_HostByteAccess : base.params.memBytes ≤ 0x400 ∧ 0x3FF < base.params.memBytes ∧
    (∀ x ∈ base.self :: base.others, x.protects 0x3FF = false) ∧
    ∃ x ∈ base.self :: [second], x.protects 0x200 = true := by
  refine ⟨by decide, by decide, by decide, second, by simp, by decide⟩

/-- BUSY and IDLE. -/
theorem test_witness_WaitPollsUntilIdle : (hosting [.wait] window).self.host = [.wait] ∧
    (hosting [.wait] window).self.engine.isBusy = true ∧ (hosting [.wait] base).self.engine = .idle ∧
    statusBusy (hosting [.wait] base).self.status = false := by decide

theorem test_witness_ResetLeavesTheRegistersZero : (ops 1#32 2#32 3#32 4#32).self.engine = .idle ∧
    nextIs (fun t => t.self = Codec.afterReset) (ops 1#32 2#32 3#32 4#32).reset1 = true := by decide

/-- A command with buffers at its boundary, and one without. -/
theorem test_witness_ResetAbandonsTheCommand : window.self.engine.isBusy = true ∧ 0x200 + 5 ≤ window.params.memBytes ∧
    (∀ a, InRange 0x100 4 a → ¬ InRange 0x200 5 a) ∧ (base.self.snapshot 0x00000002#32).usesBuffers = false :=
  ⟨rfl, by decide, by unfold InRange; omega, rfl⟩

/-- The ENGINE's turn while BUSY, and a table word. -/
theorem test_witness_StepRunsTheDecodedCommand : window.nextTurn = .engine ∧ window.self.engine.isBusy = true ∧
    decodeWord window.self.cmd = .ok (.encode true true) ∧ decodeTableWord 32 0xC = some (.encode true true) ∧
    decodeTableWord 32 0x10 = none := ⟨rfl, rfl, rfl, rfl, rfl⟩

/-- The HOST's turn with a CMD write of a sizing command next. -/
theorem test_witness_StepMakesTheHostsAccess :
    (hosting [.regWrite 32 0x00 0x00000002#32] base).nextTurn = .host ∧ base.self.engine = .idle ∧
      HostOp.regWrite 32 0x00 0x00000002#32 ≠ .wait ∧ decodeWord 0x00000002#32 = .ok (.encBound false false) :=
  ⟨rfl, rfl, by decide, rfl⟩

/-- Each clause: a schedule, a BUSY engine, a HOST with an access, a second instance with work, an ended run, and the three
turns with nothing to do. -/
theorem test_witness_ScheduleSaysWhoMoves : ({ base with schedule := [.reset] } : State).schedule = [.reset] ∧
    window.schedule = [] ∧ window.self.engine.isBusy = true ∧ (hosting [.wait] base).self.host ≠ [] ∧
    base.self.engine = .idle ∧ base.ended = true ∧ base.self.done = true ∧
    ({ base with others := [Codec.afterReset, second] } : State).others[1]? = some second ∧ second.hasWork = true ∧
    Codec.afterReset.hasWork = false ∧ base.self.host = [] ∧ base.others[0]? = none ∧
    nextIs (fun t => t.self = second && t.others = [Codec.afterReset, base.self])
      (step { base with others := [Codec.afterReset, second] }) = true := by decide

/-- An IDLE instance, a BUSY one, and two BUSY ones, whose step answers a next state. -/
theorem test_witness_EveryStepKeepsTheInvariant : (ops 0#32 4#32 0x10#32 5#32).Inv ∧
    (busy 0x0000000C#32 (ops 0#32 4#32 0x10#32 5#32)).Inv ∧ pair.Inv ∧ nextIs (fun _ => true) (step pair) = true := by decide

theorem test_witness_NoStepFaults : window.Inv := by decide

theorem test_witness_CommandInFlightCompletes : window.Inv ∧ window.self.engine.isBusy = true := by decide

/-- With a schedule and without one. -/
theorem test_witness_EveryRunEnds : (hosting [.regWrite 32 0x00 0x00000002#32, .wait] base).Inv ∧
    ({ window with schedule := [.host, .reset, .switch 0] } : State).Inv := by decide

/-- A refused step, a marked state whose next step is taken, and a change of focus between a marked and an unmarked
instance. -/
theorem test_witness_RefusedMarkStays :
    refuses .hostAddress (step (hosting [.memRead 0x400] base)) = true ∧
      (hosting [.memRead 0x400] base).advance.self.refused = true ∧
      AnyRefused base.markRefused ∧ nextIs (fun t => t.self.refused) (takeTurn .host base.markRefused) = true ∧
      nextIs (fun t => !t.self.refused && (t.others.map Codec.refused) = [true])
        (takeTurn (.switch 0) { base.markRefused with others := [second] }) = true :=
  ⟨by decide, by decide, ⟨_, List.mem_cons_self .., rfl⟩, by decide, by decide⟩

theorem test_witness_ParametersNeverChange :
    nextIs (fun t => t.params = base.params) (step (hosting [.memWrite 0 1#8] base)) = true := by decide

/-- A turn of an instance while another BUSY instance owns a byte (its first and its last one), and a change of focus. -/
theorem test_witness_InstancesDoNotInteract :
    nextIs (fun t => t.others = [second]) (takeTurn .engine pair) = true ∧ pair.Inv ∧
      second.protects 0x200 = true ∧ second.protects 0x214 = true ∧
      nextIs (fun t => t.self = second && t.others = [pair.self]) (takeTurn (.switch 0) pair) = true := by decide

/-- Each way: issue, completion, reset, and a turn that changes no phase. -/
theorem test_witness_PhaseChangesOnlyByIssueCompletionReset :
    nextIs (fun t => t.self.engine.isBusy) (takeTurn .host (hosting [.regWrite 32 0x00 0x3#32] base)) = true ∧
      nextIs (fun t => !t.self.engine.isBusy) (takeTurn .engine (busy 0x3#32 base)) = true ∧
      nextIs (fun t => !t.self.engine.isBusy) (takeTurn .reset (busy 0x3#32 base)) = true ∧
      nextIs (fun t => t.self.engine.isBusy) (takeTurn .host (busy 0x3#32 base)) = true := by decide

theorem test_witness_HostNeverWritesErrOrResult :
    nextIs (fun t => t.self.result = 0#32) (hostStep (hosting [.regWrite 32 0x18 7#32] base)) = true := by decide

/-- The HOST is about to run ENCODE of [0, 4) into [0x10, 0x15). -/
theorem test_witness_EncodeExpansionEncodes :
    (hosting (HostStmt.encode 0 4 0x10 5).expand base).self.host = (HostStmt.encode 0 4 0x10 5).expand ++ [] ∧
      base.self.engine = .idle ∧ statusBusy base.self.status = false ∧ base.schedule = [] ∧
      (HostStmt.encode 0 4 0x10 5).wellFormed = true ∧ Accepts base.params.memBytes 0 4 0x10 5 (encodedSizeBound 4) ∧
      Unshared base 0 4 0x10 5 :=
  ⟨rfl, rfl, rfl, rfl, rfl, accepts_encode, fun _ h => absurd h (by simp [base, State.reset])⟩

/-- The HOST is about to run ENCODE of [0, 4) into [0x10, 0x15), and then DECODE of its five bytes into [0x20, 0x24). -/
def roundTrip : State := hosting ((HostStmt.encode 0 4 0x10 5).expand ++ (HostStmt.decode 0x10 5 0x20 4).expand) base

theorem test_witness_EncodeThenDecodeReturnsTheInput :
    roundTrip.self.host = (HostStmt.encode 0 4 0x10 5).expand ++
        (HostStmt.decode 0x10 (cobsEncode (roundTrip.bytesAt 0 4)).length 0x20 4).expand ++ [] ∧
      (cobsEncode (roundTrip.bytesAt 0 4)).length = 5 ∧ roundTrip.self.engine = .idle ∧
      statusBusy roundTrip.self.status = false ∧ roundTrip.schedule = [] ∧
      (HostStmt.encode 0 4 0x10 5).wellFormed = true ∧ (HostStmt.decode 0x10 0 0x20 4).wellFormed = true ∧
      Accepts roundTrip.params.memBytes 0 4 0x10 5 (encodedSizeBound 4) ∧ Unshared roundTrip 0 4 0x10 5 ∧
      Accepts roundTrip.params.memBytes 0x10 5 0x20 4 (decodedSizeBound 5) ∧ Unshared roundTrip 0x10 5 0x20 4 :=
  have alone : ∀ ib il ob oc, Unshared roundTrip ib il ob oc :=
    fun _ _ _ _ _ h => absurd h (by simp [roundTrip, hosting, base, State.reset])
  ⟨by decide, by decide, rfl, rfl, rfl, rfl, rfl, accepts_encode, alone 0 4 0x10 5, accepts_decode, alone 0x10 5 0x20 4⟩

/-- Each clause at its largest operand. -/
theorem test_witness_BoundExpansionsGiveTheBound : base.self.engine = .idle ∧ statusBusy base.self.status = false ∧
    base.schedule = [] ∧ 0xFEFEFEFE ≤ 2 ^ 32 - 1 ∧ encodedSizeBound 0xFEFEFEFE ≤ 2 ^ 32 - 1 ∧
    (hosting (HostStmt.encBound 0xFEFEFEFE).expand base).self.host = (HostStmt.encBound 0xFEFEFEFE).expand ++ [] ∧
    (hosting (HostStmt.decBound 0xFFFFFFFF).expand base).self.host = (HostStmt.decBound 0xFFFFFFFF).expand ++ [] := by
  decide

theorem test_witness_TranscribedProgramsAreWellFormed :
    parseProgram "MEMW 0xFFFFFFFF, 255" = .ok [.memw 0xFFFFFFFF [255]] := by decide +kernel

/-- A reset that is taken, with another instance BUSY and an access still to make. -/
theorem test_witness_ResetReachesOneInstance :
    nextIs (fun t => t.others = [second] && t.self.host = [.wait])
      (hosting [.wait] { window with others := [second] }).reset1 = true := by decide

end Sys2Proof.Tests
end

/-! ## What a turn of the codec in focus keeps -/

section
namespace Sys2Proof.Machine

/-- What every turn but a change of focus keeps: the parameters (R4), the other codecs and the refused mark (R8). -/
structure KeepsFrame (s t : State) : Prop where
  params : t.params = s.params
  others : t.others = s.others
  refused : t.self.refused = s.self.refused

theorem KeepsFrame.rfl {s : State} : KeepsFrame s s := ⟨Eq.refl _, Eq.refl _, Eq.refl _⟩

/-- Using up a turn is no part of the frame. -/
theorem KeepsFrame.of_popTurn {s t : State} (h : KeepsFrame s.popTurn t) : KeepsFrame s t :=
  ⟨h.params, h.others, h.refused⟩

theorem exec_keepsFrame {i : Instr} {s t : State} (h : exec i s = .next t) : KeepsFrame s t := by
  obtain ⟨-, -, -, rfl⟩ | ⟨c, -, -, rfl⟩ := exec_next h
  · constructor <;> simp
  · constructor <;> simp

theorem engineStep_keepsFrame {s t : State} (h : engineStep s = .next t) : KeepsFrame s t := by
  obtain ⟨-, rfl⟩ | ⟨c, i, -, -, hx⟩ := engineStep_next h
  · exact .rfl
  · exact exec_keepsFrame hx

theorem writeReg_keepsFrame {r : Reg} {v : Word} {s t : State} (h : writeReg r v s = .next t) : KeepsFrame s t := by
  obtain ⟨-, -, i, -, hx⟩ | rfl | ⟨-, rfl⟩ := writeReg_next h
  · exact exec_keepsFrame hx
  · exact .rfl
  · constructor <;> simp

theorem access_keepsFrame {op : HostOp} {s t : State} (h : access op s = .next t) : KeepsFrame s t := by
  obtain ⟨r, rfl⟩ | ⟨a, -, rfl⟩ | ⟨a, b, -, -, -, rfl⟩ | ⟨r, v, hw⟩ := access_next h
  · constructor <;> simp
  · constructor <;> simp
  · constructor <;> simp
  · exact writeReg_keepsFrame hw

theorem hostStep_keepsFrame {s t : State} (h : hostStep s = .next t) : KeepsFrame s t := by
  obtain ⟨-, rfl⟩ | rfl | ⟨op, rest, -, ha⟩ := hostStep_next h
  · exact .rfl
  · constructor <;> simp
  · obtain ⟨hp, ho, hr⟩ := access_keepsFrame ha
    exact ⟨by simpa using hp, by simpa using ho, by simpa using hr⟩

theorem reset1_keepsFrame {s t : State} (h : s.reset1 = .next t) : KeepsFrame s t := by
  obtain ⟨-, rfl⟩ := reset1_next h
  constructor <;> simp

theorem takeTurn_keepsFrame {u : Turn} {s t : State} (hu : ∀ k, u ≠ .switch k) (h : takeTurn u s = .next t) :
    KeepsFrame s t := by
  cases u with
  | host => exact hostStep_keepsFrame h
  | engine => exact engineStep_keepsFrame h
  | reset => exact reset1_keepsFrame h
  | switch k => exact absurd rfl (hu k)

/-! ### A change of focus -/

@[simp] theorem focus_params (s : State) (k : Nat) : (s.focus k).params = s.params := by
  obtain h | ⟨x, -, h⟩ := focus_cases s k <;> rw [h]

@[simp] theorem focus_buf (s : State) (k : Nat) : (s.focus k).buf = s.buf := by
  obtain h | ⟨x, -, h⟩ := focus_cases s k <;> rw [h]

/-- Codecs have no identifiers (R183): a change of focus permutes them. -/
theorem focus_perm (s : State) (k : Nat) : ((s.focus k).self :: (s.focus k).others).Perm (s.self :: s.others) := by
  obtain h | ⟨x, hx, h⟩ := focus_cases s k
  · rw [h]
  · obtain ⟨hk, rfl⟩ := List.getElem?_eq_some_iff.1 hx
    rw [h]
    calc (s.others[k] :: s.others.set k s.self).Perm (s.others[k] :: s.self :: s.others.eraseIdx k) :=
          (List.set_perm_cons_eraseIdx hk s.self).cons _
      _ |>.Perm (s.self :: s.others[k] :: s.others.eraseIdx k) := .swap ..
      _ |>.Perm (s.self :: s.others) := (List.getElem_cons_eraseIdx_perm hk).cons _

/-- One step as a turn of the codec in focus, or a change of focus. -/
theorem step_turn {s t : State} (h : step s = .next t) : KeepsFrame s t ∨ ∃ k, t = s.popTurn.focus k := by
  obtain h | h | h | h := step_next h
  · exact .inl (hostStep_keepsFrame h).of_popTurn
  · exact .inl (engineStep_keepsFrame h).of_popTurn
  · exact .inl (reset1_keepsFrame h).of_popTurn
  · exact .inr h

end Sys2Proof.Machine
end

/-! ## How long the outputs of the encoder and the decoder can be -/

section
namespace Sys2Proof.Machine

open Sys2Proof.Claims (firings output)

/-! ### The encoder (40_encoder.md R108) -/

/-- One byte of the payload with the count of firings of the 254-literal test, the pair that `firings` folds. -/
def countByte (p : EncState × Nat) (b : Byte) : EncState × Nat :=
  (p.1.byte b, if p.1.cursor - p.1.blockStart - 1 = 254 then p.2 + 1 else p.2)

theorem firings_eq (x : List Byte) : firings x = (x.foldl countByte (EncState.start, 0)).2 := rfl

theorem foldl_countByte_fst (x : List Byte) (p : EncState × Nat) :
    (x.foldl countByte p).1 = x.foldl EncState.byte p.1 := by
  induction x generalizing p with
  | nil => rfl
  | cons b x ih => exact ih (countByte p b)

/-- After n bytes and F firings the cells are n + F + 1 (R108); each firing has closed a block of 254 literals, and it
came with a byte behind that block. -/
def Counted (p : EncState × Nat) (n : Nat) : Prop :=
  ∃ d l : List Byte, p.1.Holds d l ∧ d.length + l.length = n + p.2 ∧ 254 * p.2 + l.length ≤ n ∧
    (1 ≤ p.2 → 254 * p.2 + 1 ≤ n)

theorem Counted.start : Counted (EncState.start, 0) 0 := ⟨[], [], EncState.start_holds, by simp, by simp, by simp⟩

theorem Counted.byte {p : EncState × Nat} {n : Nat} (h : Counted p n) (b : Byte) : Counted (countByte p b) (n + 1) := by
  obtain ⟨d, l, hh, hn, hl, hF⟩ := h
  obtain ⟨zeroFull, zero, litFull, lit⟩ := hh.byte b
  by_cases hb : b = 0#8 <;> by_cases h254 : l.length = 254
  · refine ⟨_, _, zeroFull hb h254, ?_⟩
    simp [countByte, hh.literals, h254]; omega
  · refine ⟨_, _, zero hb h254, ?_⟩
    simp [countByte, hh.literals, h254]; omega
  · refine ⟨_, _, litFull hb h254, ?_⟩
    simp [countByte, hh.literals, h254]; omega
  · refine ⟨_, _, lit hb h254, ?_⟩
    simp [countByte, hh.literals, h254]; omega

theorem Counted.foldl {p : EncState × Nat} {n : Nat} (h : Counted p n) (x : List Byte) :
    Counted (x.foldl countByte p) (n + x.length) := by
  induction x generalizing p n with
  | nil => exact h
  | cons b x ih => simpa [Nat.add_assoc, Nat.add_comm 1] using ih (h.byte b)

/-- R108: the output length is n + F + 1, and F firings need 254 F + 1 bytes. -/
theorem cobsEncode_length (x : List Byte) : (cobsEncode x).length = x.length + firings x + 1 ∧
    (1 ≤ firings x → 254 * firings x + 1 ≤ x.length) := by
  obtain ⟨d, l, hh, hn, -, hF⟩ := Counted.start.foldl x
  rw [← firings_eq] at hn hF
  rw [foldl_countByte_fst] at hh
  refine ⟨?_, by simpa using hF⟩
  rw [cobsEncode, hh.close]
  simp at hn ⊢; omega

theorem cobsEncode_length_le (x : List Byte) : (cobsEncode x).length ≤ encodedSizeBound x.length := by
  obtain ⟨hlen, hF⟩ := cobsEncode_length x
  unfold encodedSizeBound
  split <;> omega

/-! ### The decoder (41_decoder.md R133) -/

/-- Step 2 of R123 outputs one byte for each it reads, on success and before a failure. -/
theorem copyLiterals_length (n : Nat) (rest z : List Byte) :
    match copyLiterals n rest z with
    | .ok z' r => z'.length + r.length = z.length + rest.length
    | .err _ p => p.length ≤ z.length + rest.length := by
  induction n generalizing rest z with
  | zero => simp [copyLiterals]
  | succ n ih =>
    cases rest with
    | nil => simp [copyLiterals]
    | cons b rest =>
      by_cases hb : b = 0#8
      · simp [copyLiterals, hb]
      · have := ih rest (z ++ [b])
        simpa [copyLiterals, hb, Nat.add_assoc, Nat.add_comm 1] using this

theorem impliedZero_length_le (code : Byte) (z : List Byte) : (impliedZero code z).length ≤ z.length + 1 := by
  unfold impliedZero; split <;> simp

/-- The loop outputs fewer bytes than it reads: every block's code byte pays for the zero it may imply, and the final
block implies none. -/
theorem decodeBlocks_length_lt (fuel : Nat) {y : List Byte} (hy : y ≠ []) (z : List Byte) :
    (output (decodeBlocks fuel y z)).length < z.length + y.length := by
  have pos := List.length_pos_iff.2 hy
  induction fuel generalizing y z with
  | zero => simpa [decodeBlocks, output] using pos
  | succ fuel ih =>
    obtain ⟨code, rest, rfl⟩ := List.exists_cons_of_ne_nil hy
    have lits := copyLiterals_length (code.toNat - 1) rest z
    simp only [decodeBlocks]
    split
    · simp [output]
    · split <;> rename_i hc <;> simp only [hc] at lits
      · simp [output]; omega
      · simp [output] at lits ⊢; omega
      · rename_i z' b bs
        have := ih (List.cons_ne_nil b bs) (impliedZero code z') (by simp)
        have := impliedZero_length_le code z'
        simp at *; omega

/-- R133, for complete and for partial output. -/
theorem cobsDecode_length_le (y : List Byte) : (output (cobsDecode y)).length ≤ decodedSizeBound y.length := by
  by_cases hy : y = []
  · simp [hy, cobsDecode, decodeBlocks, output]
  · have hlt : (output (cobsDecode y)).length < ([] : List Byte).length + y.length := decodeBlocks_length_lt _ hy []
    rw [decodedSizeBound, if_neg (by simpa using hy)]
    simp at hlt; omega

end Sys2Proof.Machine
end

/-! ## What a command's operation gives the commit -/

section
namespace Sys2Proof.Machine

open Sys2Proof.Claims (output)

/-- A successful operation gives a RESULT (R106, R130, R150, R153); with both buffers it is the length of the bytes
that the operation puts at the start of the output range. -/
theorem operation_ok {i : Instr} {s : State} {c : Snapshot} (h : (operation i s c).err = .ok) :
    ∃ v, (operation i s c).res = some v ∧
      (Instr.usesBuffers i = true → ∃ bs, (operation i s c).outfx = outputFx c bs ∧ v = BitVec.ofNat 32 bs.length) := by
  cases i with
  | encode ip op =>
    by_cases hb : (ip && op) = true
    · simp only [operation, hb, if_true, encodeOp]; exact ⟨_, rfl, fun _ => ⟨_, rfl, rfl⟩⟩
    · simp [operation, hb, invalidArgument] at h
  | decode ip op =>
    by_cases hb : (ip && op) = true
    · simp only [operation, hb, if_true, decodeOp] at h ⊢
      cases hd : cobsDecode (s.bytesAt c.inBase.toNat c.inLen.toNat) with
      | ok z => simp only; exact ⟨_, rfl, fun _ => ⟨_, rfl, rfl⟩⟩
      | err e p => rw [hd] at h; cases e <;> simp [DataErr.err] at h
    · simp [operation, hb, invalidArgument] at h
  | encBound ip op => exact ⟨_, rfl, by simp [Instr.usesBuffers]⟩
  | decBound ip op => exact ⟨_, rfl, by simp [Instr.usesBuffers]⟩

/-- R15, R74: an operation reads its snapshot and the input bytes, and nothing else of the state. -/
theorem operation_congr {i : Instr} {s s' : State} {c : Snapshot}
    (h : s'.bytesAt c.inBase.toNat c.inLen.toNat = s.bytesAt c.inBase.toNat c.inLen.toNat) :
    operation i s' c = operation i s c := by
  cases i <;> simp only [operation, encodeOp, decodeOp, h]

/-- An accepted command writes no byte, or its whole output range, which lies in BUF (R52, R57). -/
theorem operation_outfx {i : Instr} {s : State} {c : Snapshot} {memBytes : Nat}
    (h : issueRefusal memBytes i c = none) :
    (operation i s c).outfx = [] ∨
      (operation i s c).outfx.length = c.outCap.toNat ∧ c.outBase.toNat + c.outCap.toNat ≤ memBytes := by
  cases i with
  | encode ip op =>
    by_cases hb : (ip && op) = true
    · simp only [issueRefusal, hb, if_true] at h
      obtain ⟨-, hout, -, hcap⟩ := bufferRefusal_eq_none.1 h
      have hlen := cobsEncode_length_le (s.bytesAt c.inBase.toNat c.inLen.toNat)
      rw [State.bytesAt, bytesAt_length] at hlen
      simp only [operation, hb, if_true, encodeOp]
      exact .inr ⟨outputFx_length (hlen.trans hcap), hout⟩
    · simp [operation, hb, invalidArgument]
  | decode ip op =>
    by_cases hb : (ip && op) = true
    · simp only [issueRefusal, hb, if_true] at h
      obtain ⟨-, hout, -, hcap⟩ := bufferRefusal_eq_none.1 h
      have hlen := cobsDecode_length_le (s.bytesAt c.inBase.toNat c.inLen.toNat)
      rw [State.bytesAt, bytesAt_length] at hlen
      simp only [operation, hb, if_true, decodeOp, State.bytesAt]
      refine .inr ⟨?_, hout⟩
      split
      · rename_i z hd; rw [hd] at hlen; exact outputFx_length (hlen.trans hcap)
      · exact outputFx_length (Nat.zero_le _)
    · simp [operation, hb, invalidArgument]
  | encBound ip op => exact .inl rfl
  | decBound ip op => exact .inl rfl

/-- STATUS reads 0 after a completion exactly when the command succeeded (R76). -/
theorem statusDone_eq_zero {e : Err} : statusDone e.code = 0#32 ↔ e = .ok := by
  cases e <;> decide

end Sys2Proof.Machine
end

/-! ## The invariant of the machine -/

section
namespace Sys2Proof.Machine

theorem cmdReserved_encode (i : Instr) : cmdReserved (encode i) = 0#28 := by
  cases i <;> exact cmdReserved_cmdWord ..

theorem decodeWord_encode (i : Instr) : decodeWord (encode i) = .ok i := by
  cases i <;>
    simp [encode, decodeWord, cmdReserved_cmdWord, cmdOp_cmdWord, cmdInPresent_cmdWord, cmdOutPresent_cmdWord, opcodeMap]

theorem statusHardwired_statusDone (e : Err) : statusHardwired (statusDone e.code) = true := by
  cases e <;> decide

theorem statusBusy_statusDone (e : Err) : statusBusy (statusDone e.code) = false := by
  cases e <;> decide

theorem statusHardwired_statusStart {v : Word} (h : statusHardwired v = true) :
    statusHardwired (statusStart v) = true := by
  simp only [statusHardwired, statusStart, beq_iff_eq] at *
  rw [BitVec.and_comm] at *
  rw [BitVec.and_or_distrib_left, h]
  decide

theorem statusBusy_statusStart (v : Word) : statusBusy (statusStart v) = true := by
  simp [statusBusy, statusStart]

@[simp] theorem rangesMeet_nil (qs : List Range) : rangesMeet [] qs = false := rfl

@[simp] theorem protectedRanges_idle : Engine.idle.protectedRanges = [] := rfl

/-- An IDLE codec meets its part of the invariant when its two hardwired words do. -/
theorem Codec.ok_of_idle {memBytes : Nat} {x : Codec} (he : x.engine = .idle) (hc : cmdReserved x.cmd = 0#28)
    (hs : statusHardwired x.status = true) (hb : statusBusy x.status = false) : x.Ok memBytes :=
  ⟨hc, hs, by simp [he, hb], by simp [Codec.snapshotFresh, he], by simp [Engine.accepted, he]⟩

theorem Codec.ok_resetRegs (memBytes : Nat) (x : Codec) : x.resetRegs.Ok memBytes :=
  Codec.ok_of_idle rfl (by rw [resetRegs_cmd]; decide) (by rw [resetRegs_status]; decide) (by rw [resetRegs_status]; decide)

/-- The invariant holds after a change of the codec in focus and of BUF that keeps BUF well-formed, gives a codec
that is well-formed, and owns no byte that another codec owns. -/
theorem State.Inv.replace {s t : State} (h : s.Inv) (hf : KeepsFrame s t) (hm : Memory.wf s.params.memBytes t.buf)
    (hx : t.self.Ok s.params.memBytes)
    (hd : ∀ y ∈ s.others, rangesMeet t.self.engine.protectedRanges y.engine.protectedRanges = false) : t.Inv := by
  obtain ⟨hp, -, hok, hdis⟩ := h
  obtain ⟨-, hok⟩ := List.forall_mem_cons.1 hok
  obtain ⟨-, hdis⟩ := List.pairwise_cons.1 hdis
  rw [State.Inv, State.Disjoint, hf.params, hf.others]
  exact ⟨hp, hm, List.forall_mem_cons.2 ⟨hx, hok⟩, List.pairwise_cons.2 ⟨hd, hdis⟩⟩

theorem State.Inv.wf {s : State} (h : s.Inv) : Memory.wf s.params.memBytes s.buf := h.2.1

theorem State.Inv.self_ok {s : State} (h : s.Inv) : s.self.Ok s.params.memBytes := h.2.2.1 _ List.mem_cons_self

theorem State.Inv.self_disjoint {s : State} (h : s.Inv) :
    ∀ y ∈ s.others, rangesMeet s.self.engine.protectedRanges y.engine.protectedRanges = false :=
  (List.pairwise_cons.1 h.2.2.2).1

/-- The invariant does not speak of the schedule, the draws, the HOST's accesses or what it has seen. -/
theorem State.Inv.popTurn {s : State} (h : s.Inv) : s.popTurn.Inv := h

theorem State.Inv.popHost {s : State} (h : s.Inv) : s.popHost.Inv :=
  h.replace (by constructor <;> simp) h.wf h.self_ok h.self_disjoint

theorem State.Inv.see {s : State} (h : s.Inv) (v : Seen) : (s.see v).Inv :=
  h.replace (by constructor <;> simp) h.wf h.self_ok h.self_disjoint

theorem State.Inv.readReg {s : State} (h : s.Inv) (r : Reg) : (s.readReg r).Inv := h.see _

/-- Equal up to the order of the codecs: the invariant does not depend on which one is in focus. -/
theorem State.Inv.perm {s t : State} (h : s.Inv) (hp : t.params = s.params) (hb : t.buf = s.buf)
    (hperm : (t.self :: t.others).Perm (s.self :: s.others)) : t.Inv := by
  obtain ⟨hpar, hwf, hok, hdis⟩ := h
  rw [State.Inv, State.Disjoint, hp, hb]
  refine ⟨hpar, hwf, fun x hx => hok x (hperm.mem_iff.1 hx), (hperm.pairwise_iff fun hxy => ?_).2 hdis⟩
  rwa [rangesMeet_comm]

theorem State.Inv.focus {s : State} (h : s.Inv) (k : Nat) : (s.focus k).Inv :=
  h.perm (focus_params s k) (focus_buf s k) (focus_perm s k)

/-- R81: an issue that passes its checks puts an accepted command in flight that shares no byte with another. -/
theorem State.Inv.start {s : State} (h : s.Inv) {i : Instr}
    (hr : issueRefusal s.params.memBytes i (s.self.snapshot (encode i)) = none)
    (hs : sharesBuffer (s.self.snapshot (encode i)) s.others = false) :
    (s.start (s.self.snapshot (encode i))).Inv := by
  obtain ⟨-, hst, -⟩ := h.self_ok
  refine h.replace (by constructor <;> simp) h.wf ⟨?_, ?_, ?_, ?_, ?_⟩ ?_
  · exact cmdReserved_encode i
  · exact statusHardwired_statusStart hst
  · exact statusBusy_statusStart _
  · simp [Codec.snapshotFresh, Codec.snapshot]
  · simp [Engine.accepted, decodeWord_encode, hr]
  · simpa [sharesBuffer, Engine.protectedRanges] using hs

/-- R82: the commit of an accepted command leaves the codec IDLE and BUF well-formed. -/
theorem State.Inv.complete {s : State} (h : s.Inv) {i : Instr} {c : Snapshot}
    (hr : issueRefusal s.params.memBytes i c = none) : (s.complete c (operation i s c)).Inv := by
  obtain ⟨hcmd, -⟩ := h.self_ok
  have hm : Memory.wf s.params.memBytes (s.complete c (operation i s c)).buf := by
    obtain hnil | ⟨hlen, hle⟩ := operation_outfx (s := s) hr
    · rw [complete_buf_nil hnil]; exact h.wf
    · exact wf_writeBytes h.wf _ _ (by rw [drawBytes_length, hlen]; exact hle)
  refine h.replace (by constructor <;> simp) hm ?_ (by simp)
  exact Codec.ok_of_idle rfl hcmd (statusHardwired_statusDone _) (statusBusy_statusDone _)

theorem State.Inv.exec {s t : State} (h : s.Inv) {i : Instr} (hx : exec i s = .next t) : t.Inv := by
  obtain ⟨-, hr, hs, rfl⟩ | ⟨c, -, hr, rfl⟩ := exec_next hx
  · exact h.start hr hs
  · exact h.complete hr

theorem State.Inv.engineStep {s t : State} (h : s.Inv) (hx : engineStep s = .next t) : t.Inv := by
  obtain ⟨-, rfl⟩ | ⟨c, i, -, -, hx⟩ := engineStep_next hx
  · exact h
  · exact h.exec hx

/-- R23 to R26: an operand register changes only while IDLE, so no snapshot goes stale. -/
theorem State.Inv.setOperand {s : State} (h : s.Inv) (he : s.self.engine = .idle) (r : Reg) (v : Word) :
    State.Inv { s with self := s.self.setOperand r v } := by
  obtain ⟨hcmd, hst, hbusy, -⟩ := h.self_ok
  refine h.replace (by constructor <;> simp) h.wf (Codec.ok_of_idle ?_ ?_ ?_ ?_) (by simp [he])
  · simpa using he
  · simpa using hcmd
  · simpa using hst
  · simpa [he] using hbusy

theorem State.Inv.writeReg {s t : State} (h : s.Inv) {r : Reg} {v : Word} (hw : writeReg r v s = .next t) : t.Inv := by
  obtain ⟨-, -, i, -, hx⟩ | rfl | ⟨he, rfl⟩ := writeReg_next hw
  · exact h.exec hx
  · exact h
  · exact h.setOperand he r v

theorem State.Inv.access {s t : State} (h : s.Inv) {op : HostOp} (ha : access op s = .next t) : t.Inv := by
  obtain ⟨r, rfl⟩ | ⟨a, -, rfl⟩ | ⟨a, b, hlt, -, -, rfl⟩ | ⟨r, v, hw⟩ := access_next ha
  · exact h.readReg r
  · exact h.see _
  · exact h.replace (by constructor <;> simp) (wf_write h.wf hlt b) h.self_ok h.self_disjoint
  · exact h.writeReg hw

theorem State.Inv.hostStep {s t : State} (h : s.Inv) (hx : hostStep s = .next t) : t.Inv := by
  obtain ⟨-, rfl⟩ | rfl | ⟨op, rest, -, ha⟩ := hostStep_next hx
  · exact h
  · exact h.readReg _
  · exact h.popHost.access ha

/-- R190, R191: reset fills an output range that lies in BUF, and leaves an IDLE codec whose registers are 0. -/
theorem State.Inv.reset1 {s t : State} (h : s.Inv) (hx : s.reset1 = .next t) : t.Inv := by
  have hf := reset1_keepsFrame hx
  obtain ⟨hlegal, rfl⟩ := reset1_next hx
  refine h.replace hf (wf_writeBytes h.wf _ _ ?_) (Codec.ok_resetRegs _ _) (by simp)
  simpa using range_legal.2 hlegal

/-- Settles O46: each of the four kinds of turn keeps the invariant. -/
theorem everyStepKeepsTheInvariant : Obligations.EveryStepKeepsTheInvariant := by
  intro s t h hstep
  obtain hx | hx | hx | ⟨k, rfl⟩ := step_next hstep
  · exact h.popTurn.hostStep hx
  · exact h.popTurn.engineStep hx
  · exact h.popTurn.reset1 hx
  · exact h.popTurn.focus k

end Sys2Proof.Machine
end

/-! ## What a refused step leaves -/

section
namespace Sys2Proof.Machine

open Sys2Proof.Claims (AnyRefused)

/-- R8, R21: a refusal sets the mark of the codec in focus and keeps its registers, its phase, BUF and the other
codecs. -/
theorem refuse_keeps (s : State) : s.refuse.self.refused = true ∧ (∀ q : Reg, s.refuse.self.get q = s.self.get q) ∧
    s.refuse.self.engine = s.self.engine ∧ s.refuse.buf = s.buf ∧ s.refuse.others = s.others := by
  unfold State.refuse
  split <;> exact ⟨rfl, fun q => by cases q <;> rfl, rfl, rfl, rfl⟩

/-- R73, R194: a CMD write with a reserved bit set is refused, whether the engine is IDLE or BUSY. -/
theorem access_reservedCmd {v : Word} (h : cmdReserved v ≠ 0#28) (s : State) :
    ∃ r, access (.regWrite 32 0x00 v) s = .refused r := by
  have hw : access (.regWrite 32 0x00 v) s = writeCmd v s := rfl
  have hd : decodeWord v = .error .reservedBits := by simp [decodeWord, h]
  rw [hw, writeCmd, hd]
  split <;> exact ⟨_, rfl⟩

/-- Settles O3: the reserved word reaches no command, and a refusal keeps everything but the mark. -/
theorem reservedCommandWordIsRefused : Obligations.ReservedCommandWordIsRefused := by
  refine ⟨fun s v hv => ?_, fun v hv => ⟨cmdOp v, cmdInPresent v, cmdOutPresent v, by simp [decodeWord, hv]⟩⟩
  obtain ⟨r, hr⟩ := access_reservedCmd hv s
  refine ⟨⟨r, hr⟩, _, rfl, ?_⟩
  rw [hr]
  exact refuse_keeps s

/-- R201: a marked state is no good final state. -/
theorem good_eq_false_of_anyRefused {s : State} (h : AnyRefused s) : s.good = false := by
  obtain ⟨x, hx, hr⟩ := h
  rw [Bool.eq_false_iff]
  intro hg
  simp only [State.good, Bool.and_eq_true, Bool.not_eq_true', List.all_eq_true] at hg
  obtain ⟨⟨-, hself⟩, hothers⟩ := hg
  rcases List.mem_cons.1 hx with rfl | hx
  · simp [hr] at hself
  · simpa [hr] using hothers x hx

theorem KeepsFrame.marks {s t : State} (h : KeepsFrame s t) :
    (t.self :: t.others).map Codec.refused = (s.self :: s.others).map Codec.refused := by
  simp [h.others, h.refused]

/-- Settles O50: a refusal is `State.refuse`, a turn keeps the marks in place, a change of focus permutes the
codecs. -/
theorem refusedMarkStays : Obligations.RefusedMarkStays := by
  refine ⟨fun s r h => ?_, fun s t h => ?_, fun u s t hu h => (takeTurn_keepsFrame hu h).marks, fun k s t h => ?_,
    fun s h => good_eq_false_of_anyRefused h⟩
  · rw [State.advance, h]
    exact refuse_keeps s
  · obtain hf | ⟨k, rfl⟩ := step_turn h
    · rw [hf.marks]
    · exact (focus_perm s.popTurn k).map _
  · cases h
    exact focus_perm s k

/-- Settles O51: a turn keeps the frame, and a change of focus permutes the codecs. -/
theorem parametersNeverChange : Obligations.ParametersNeverChange := by
  intro s t h
  obtain hf | ⟨k, rfl⟩ := step_turn h
  · exact ⟨hf.params, by rw [hf.others]⟩
  · exact ⟨focus_params .., by simpa using (focus_perm s.popTurn k).length_eq⟩

end Sys2Proof.Machine
end

/-! ## Independent commands and the decoder's blocks -/

section
namespace Sys2Proof.Machine

open Sys2Proof.Claims (InRange before)

/-- The bytes that a successful command with both buffers leaves at the start of its output range, read back. -/
theorem complete_bytesAt_output {s : State} {c : Snapshot} {r : OpResult} {bs : List Byte}
    (hr : r.outfx = outputFx c bs) {n : Nat} (hn : n ≤ bs.length) :
    (s.complete c r).bytesAt c.outBase.toNat n = bs.take n := by
  refine List.ext_getElem (by simpa [State.bytesAt] using hn) fun k h1 h2 => ?_
  have hk : k < bs.length := by simp at h2; omega
  rw [List.getElem_take]
  exact (bytesAt_getElem _ _ _ _ h1).trans (complete_byteAt_output hr hk)

/-- Settles O32: the operation is a function of the snapshot and the input bytes (R15). -/
theorem commandsAreIndependent : Obligations.CommandsAreIndependent := by
  intro i s s' t t' c hs hs' hin ht ht'
  have commits : ∀ {s t : State}, s.self.engine = .busy c → exec i s = .next t →
      t = s.complete c (operation i s c) := by
    intro s t hs ht
    obtain ⟨he, -⟩ | ⟨d, hd, -, rfl⟩ := exec_next ht
    · rw [hs] at he; cases he
    · rw [hs] at hd; cases hd; rfl
  have hbytes : s'.bytesAt c.inBase.toNat c.inLen.toNat = s.bytesAt c.inBase.toNat c.inLen.toNat :=
    bytesAt_congr fun k hk => hin _ ⟨by omega, by omega⟩
  obtain rfl := commits hs ht
  obtain rfl := commits hs' ht'
  rw [operation_congr hbytes]
  refine ⟨rfl, fun hok => ?_⟩
  obtain ⟨v, hv, hout⟩ := operation_ok (statusDone_eq_zero.1 hok)
  simp only [complete_result, hv, drawWord_some, true_and]
  intro hu
  obtain ⟨bs, hfx, rfl⟩ := hout hu
  have hle : (BitVec.ofNat 32 bs.length).toNat ≤ bs.length := by
    rw [BitVec.toNat_ofNat]; exact Nat.mod_le ..
  rw [complete_bytesAt_output hfx hle, complete_bytesAt_output hfx hle]

/-- The loop behind output collected so far is the decoder itself, its output put behind. -/
theorem decodeBlocks_eq_before {fuel : Nat} {y : List Byte} (p : List Byte) (h : y.length ≤ fuel) :
    decodeBlocks fuel y p = before p (cobsDecode y) := by
  have hp := decodeBlocks_prefix fuel y [] p
  rw [List.append_nil] at hp
  rw [hp, decodeBlocks_fuel [] h, ← cobsDecode]
  cases cobsDecode y <;> rfl

theorem cobsDecode_zero (rest : List Byte) : cobsDecode (0#8 :: rest) = .err .zero [] := by
  simp [cobsDecode, decodeBlocks]

section
variable {code : Byte} {ls : List Byte} (hc : code ≠ 0#8) (hls : 0#8 ∉ ls)
include hc hls

/-- R126: the final block gives its literals and no zero. -/
theorem cobsDecode_final (hlen : ls.length + 1 = code.toNat) : cobsDecode (code :: ls) = .ok ls := by
  have copies := (copyLiterals_nonzero ls [] [] hls).1
  simp only [List.append_nil, List.nil_append] at copies
  simp [cobsDecode, decodeBlocks, hc, ← hlen, copies]

/-- R127: behind any other block a zero follows unless its code is 255, and decoding goes on. -/
theorem cobsDecode_block (hlen : ls.length + 1 = code.toNat) (b : Byte) (rest : List Byte) :
    cobsDecode (code :: (ls ++ b :: rest)) =
      before (ls ++ if code.toNat < 255 then [0#8] else []) (cobsDecode (b :: rest)) := by
  have copies := (copyLiterals_nonzero ls (b :: rest) [] hls).1
  have hn : code.toNat - 1 = ls.length := by omega
  have hz : impliedZero code ls = ls ++ if code.toNat < 255 then [0#8] else [] := by
    unfold impliedZero; split <;> simp
  simp only [cobsDecode, List.length_cons, decodeBlocks, hc, if_false, hn, copies, List.nil_append, hz]
  exact decodeBlocks_eq_before _ (by simp)

/-- R125: input that ends among the literals. -/
theorem cobsDecode_truncated (hlen : ls.length + 1 < code.toNat) : cobsDecode (code :: ls) = .err .truncated ls := by
  have runsOut := (copyLiterals_nonzero ls [] [] hls).2.1 (code.toNat - 1 - ls.length - 1)
  rw [show ls.length + (code.toNat - 1 - ls.length - 1) + 1 = code.toNat - 1 by omega] at runsOut
  simp [cobsDecode, decodeBlocks, hc, runsOut]

/-- R125: a zero among the literals. -/
theorem cobsDecode_zeroLiteral (hlen : ls.length + 1 < code.toNat) (rest : List Byte) :
    cobsDecode (code :: (ls ++ 0#8 :: rest)) = .err .zero ls := by
  have meetsZero := (copyLiterals_nonzero ls rest [] hls).2.2 (code.toNat - 1 - ls.length - 1)
  rw [show ls.length + (code.toNat - 1 - ls.length - 1) + 1 = code.toNat - 1 by omega] at meetsZero
  simp [cobsDecode, decodeBlocks, hc, meetsZero]

end

/-- Settles O15: one law for each way a block can end. -/
theorem decoderBlockLaws : Obligations.DecoderBlockLaws :=
  ⟨rfl, cobsDecode_zero, fun _ _ hc hls => ⟨cobsDecode_final hc hls, fun b rest hlen => cobsDecode_block hc hls hlen b rest,
    cobsDecode_truncated hc hls, fun rest hlen => cobsDecode_zeroLiteral hc hls hlen rest⟩⟩

end Sys2Proof.Machine
end

/-! ## Whose turn it is and what it runs -/

section
namespace Sys2Proof.Machine

theorem nextTurn_scheduled {s : State} {u : Turn} {us : List Turn} (h : s.schedule = u :: us) : s.nextTurn = u := by
  simp [State.nextTurn, h]

theorem step_of_nextTurn {s : State} {u : Turn} (h : s.nextTurn = u) : step s = takeTurn u s.popTurn := by
  rw [step, h]

theorem popTurn_scheduled {s : State} {u : Turn} {us : List Turn} (h : s.schedule = u :: us) :
    s.popTurn = { s with schedule := us } := by
  simp [State.popTurn, h]

/-- Without a scheduled turn there is none to use up. -/
theorem popTurn_unscheduled {s : State} (h : s.schedule = []) : s.popTurn = s := by
  obtain ⟨x, xs, m, p, us, n⟩ := s
  cases h
  rfl

theorem step_scheduled {s : State} {u : Turn} {us : List Turn} (h : s.schedule = u :: us) :
    step s = takeTurn u { s with schedule := us } := by
  rw [step_of_nextTurn (nextTurn_scheduled h), popTurn_scheduled h]

theorem step_unscheduled {s : State} {u : Turn} (hs : s.schedule = []) (h : s.nextTurn = u) :
    step s = takeTurn u s := by
  rw [step_of_nextTurn h, popTurn_unscheduled hs]

/-! ### The ENGINE's turn -/

theorem engineStep_idle {s : State} (h : s.self.engine = .idle) : engineStep s = .next s := by
  rw [engineStep, h]

theorem engineStep_busy {s : State} {c : Snapshot} {i : Instr} (h : s.self.engine = .busy c)
    (hi : decodeWord c.cmd = .ok i) : engineStep s = exec i s := by
  rw [engineStep, h]
  simp only [hi]

theorem decodeWord_of_decodeTableWord {w : Nat} {i : Instr} (h : decodeTableWord 32 w = some i) :
    decodeWord (BitVec.ofNat 32 (w % 2 ^ 32)) = .ok i := by
  have hlt : w % 2 ^ 32 < 2 ^ 32 := Nat.mod_lt _ (by norm_num)
  rw [decodeTableWord, if_pos hlt] at h
  generalize decodeWord (BitVec.ofNat 32 (w % 2 ^ 32)) = d at h ⊢
  cases d with
  | ok j => exact congrArg Except.ok (Option.some.inj h)
  | error e => cases h

theorem inFlight_engine (s : State) (w : Word) : (s.inFlight w).self.engine = .busy (s.self.snapshot w) := rfl

/-- A placed command word moves next, and its turn uses up no scheduled one (log 8). -/
theorem inFlight_turn (s : State) (w : Word) :
    (s.inFlight w).nextTurn = .engine ∧ (s.inFlight w).popTurn = { s.inFlight w with schedule := s.schedule } := by
  cases hs : s.schedule <;> simp [State.inFlight, State.nextTurn, State.popTurn, hs, State.start]

theorem step_engineTurn {s : State} {c : Snapshot} {i : Instr} (hturn : s.nextTurn = .engine)
    (hbusy : s.self.engine = .busy c) (hi : decodeWord c.cmd = .ok i) : step s = exec i s.popTurn := by
  rw [step_of_nextTurn hturn]
  exact engineStep_busy (s := s.popTurn) hbusy hi

/-- Settles O42: the ENGINE's turn decodes the word in the snapshot, placed or issued. -/
theorem stepRunsTheDecodedCommand : Obligations.StepRunsTheDecodedCommand := by
  refine ⟨fun s c i => step_engineTurn, fun s w i hw => ?_⟩
  obtain ⟨hturn, hpop⟩ := inFlight_turn s (BitVec.ofNat 32 (w % 2 ^ 32))
  rw [State.withFetchWord, ← hpop]
  exact step_engineTurn hturn (inFlight_engine ..) (decodeWord_of_decodeTableWord hw)

/-! ### The HOST's turn -/

theorem hostStep_nil {s : State} (h : s.self.host = []) : hostStep s = .next s := by
  rw [hostStep, h]

theorem hostStep_cons {s : State} {op : HostOp} {rest : List HostOp} (h : s.self.host = op :: rest) (hop : op ≠ .wait) :
    hostStep s = access op s.popHost := by
  rw [hostStep, h]
  cases op with
  | wait => exact absurd rfl hop
  | regRead | regWrite | memRead | memWrite => rfl

/-- R21, R81: a write of a command's word to CMD while IDLE issues the command. -/
theorem access_writeCmd {s : State} {v : Word} {i : Instr} (h : s.self.engine = .idle) (hi : decodeWord v = .ok i) :
    access (.regWrite 32 0x00 v) s = exec i s := by
  have hw : access (.regWrite 32 0x00 v) s = writeCmd v s := rfl
  simp [hw, writeCmd, h, hi]

/-- Settles O43: the HOST's turn is its next access, and a CMD write is the issue. -/
theorem stepMakesTheHostsAccess : Obligations.StepMakesTheHostsAccess := by
  intro s op rest hturn hhost hop
  have makes : step s = access op s.popTurn.popHost := by
    rw [step_of_nextTurn hturn]
    exact hostStep_cons hhost hop
  refine ⟨makes, ?_⟩
  rintro v i rfl hidle hi
  rw [makes]
  exact access_writeCmd hidle hi

/-! ### Without a schedule -/

theorem hasWork_eq_false {x : Codec} : x.hasWork = false ↔ x.engine = .idle ∧ x.host = [] := by
  cases he : x.engine <;> simp [Codec.hasWork, he]

theorem done_eq_true {x : Codec} : x.done = true ↔ x.hasWork = false := by
  simp [Codec.done]

theorem nextTurn_busy {s : State} {c : Snapshot} (hs : s.schedule = []) (h : s.self.engine = .busy c) :
    s.nextTurn = .engine := by
  simp [State.nextTurn, hs, h]

theorem nextTurn_idle {s : State} (hs : s.schedule = []) (he : s.self.engine = .idle) (hh : s.self.host ≠ []) :
    s.nextTurn = .host := by
  simp [State.nextTurn, hs, he, hh]

/-- A codec in focus that is done gives way to the first other one with work. -/
theorem nextTurn_done {s : State} {k : Nat} (hs : s.schedule = []) (hd : s.self.done = true)
    (hk : s.others.findIdx? Codec.hasWork = some k) : s.nextTurn = .switch k := by
  obtain ⟨he, hh⟩ := hasWork_eq_false.1 (done_eq_true.1 hd)
  simp [State.nextTurn, hs, he, hh, hk]

theorem nextTurn_ended {s : State} (hs : s.schedule = []) (h : s.ended = true) : s.nextTurn = .host := by
  simp only [State.ended, Bool.and_eq_true, List.all_eq_true] at h
  obtain ⟨hself, hothers⟩ := h
  obtain ⟨he, hh⟩ := hasWork_eq_false.1 (done_eq_true.1 hself)
  have hnone : s.others.findIdx? Codec.hasWork = none :=
    List.findIdx?_eq_none_iff.2 fun x hx => done_eq_true.1 (hothers x hx)
  simp [State.nextTurn, hs, he, hh, hnone]

theorem host_of_ended {s : State} (h : s.ended = true) : s.self.host = [] := by
  rw [State.ended, Bool.and_eq_true] at h
  exact (hasWork_eq_false.1 (done_eq_true.1 h.1)).2

theorem focus_some {s : State} {k : Nat} {x : Codec} (h : s.others[k]? = some x) :
    s.focus k = { s with self := x, others := s.others.set k s.self } := by
  simp [State.focus, h]

theorem focus_none {s : State} {k : Nat} (h : s.others[k]? = none) : s.focus k = s := by
  simp [State.focus, h]

theorem findIdx?_of_first {α : Type} {p : α → Bool} {xs : List α} {k : Nat} {x : α} (hk : xs[k]? = some x)
    (hx : p x = true) (hfirst : ∀ j < k, ∀ y, xs[j]? = some y → p y = false) : xs.findIdx? p = some k := by
  obtain ⟨hlt, rfl⟩ := List.getElem?_eq_some_iff.1 hk
  exact List.findIdx?_eq_some_iff_getElem.2
    ⟨hlt, hx, fun j hj => by simp [hfirst j hj _ (List.getElem?_eq_getElem (hj.trans hlt))]⟩

/-- R201: a run that has ended stays as it is. -/
theorem step_ended {s : State} (hs : s.schedule = []) (h : s.ended = true) : step s = .next s := by
  rw [step_unscheduled hs (nextTurn_ended hs h)]
  exact hostStep_nil (host_of_ended h)

/-- A scheduled turn of an agent with nothing to do, or to no codec, is used up. -/
theorem step_nothingToDo {s : State} {us : List Turn} :
    (s.schedule = .host :: us → s.self.host = [] → step s = .next { s with schedule := us }) ∧
    (s.schedule = .engine :: us → s.self.engine = .idle → step s = .next { s with schedule := us }) ∧
    ∀ k, s.schedule = .switch k :: us → s.others[k]? = none → step s = .next { s with schedule := us } := by
  refine ⟨fun hs hh => ?_, fun hs he => ?_, fun k hs hk => ?_⟩
  · rw [step_scheduled hs]; exact hostStep_nil hh
  · rw [step_scheduled hs]; exact engineStep_idle he
  · rw [step_scheduled hs]; exact congrArg Host.Outcome.next (focus_none hk)

/-- Settles O44: `State.nextTurn` case by case. -/
theorem scheduleSaysWhoMoves : Obligations.ScheduleSaysWhoMoves := by
  refine ⟨fun s u us hs => step_scheduled hs, fun s c hs he => step_unscheduled hs (nextTurn_busy hs he),
    fun s hs he hh => step_unscheduled hs (nextTurn_idle hs he hh), fun s k x hs hd hk hx hfirst => ?_,
    fun s hs h => step_ended hs h, fun s us => step_nothingToDo⟩
  rw [step_unscheduled hs (nextTurn_done hs hd (findIdx?_of_first hk hx hfirst)), takeTurn, focus_some hk]

end Sys2Proof.Machine
end

/-! ## The frames of issue and completion -/

section
namespace Sys2Proof.Machine

open Sys2Proof.Claims (KeepsOutside)

/-- R81: what `exec` can do while IDLE is the end of an issue. -/
theorem exec_next_idle {i : Instr} {s t : State} (he : s.self.engine = .idle) (h : exec i s = .next t) :
    t = s.start (s.self.snapshot (encode i)) := by
  obtain ⟨-, -, -, rfl⟩ | ⟨c, hc, -⟩ := exec_next h
  · rfl
  · rw [he] at hc; cases hc

/-- R82: what `exec` can do while BUSY is the commit of an accepted command. -/
theorem exec_next_busy {i : Instr} {s t : State} {c : Snapshot} (he : s.self.engine = .busy c)
    (h : exec i s = .next t) : issueRefusal s.params.memBytes i c = none ∧ t = s.complete c (operation i s c) := by
  obtain ⟨hidle, -⟩ | ⟨d, hd, hr, rfl⟩ := exec_next h
  · rw [he] at hidle; cases hidle
  · rw [he] at hd; cases hd; exact ⟨hr, rfl⟩

theorem statusErr_statusStart (v : Word) : statusErr (statusStart v) = statusErr v := by
  have h : (0x10#32).extractLsb' 0 2 = 0#2 := by decide
  rw [statusErr, statusStart, BitVec.extractLsb'_or, h, BitVec.or_zero, statusErr]

/-- R54: a commit of at most OUT_CAP bytes keeps every byte outside the output range. -/
theorem complete_keepsOutside (s : State) {c : Snapshot} {r : OpResult} (hl : r.outfx.length ≤ c.outCap.toNat) :
    KeepsOutside s (s.complete c r) c.outBase.toNat c.outCap.toNat := by
  intro a ha
  refine complete_byteAt_outside hl ?_
  rw [Bool.eq_false_iff, ne_eq, range_has]
  exact ha

/-- R101, R121, R150, R153: a command that does not use its buffers gives no output byte. -/
theorem operation_outfx_of_not_usesBuffers {i : Instr} (h : Instr.usesBuffers i = false) (s : State) (c : Snapshot) :
    (operation i s c).outfx = [] := by
  cases i with
  | encode ip op => simp only [Instr.usesBuffers] at h; simp [operation, h, invalidArgument]
  | decode ip op => simp only [Instr.usesBuffers] at h; simp [operation, h, invalidArgument]
  | encBound ip op => rfl
  | decBound ip op => rfl

/-- R57: an accepted command gives no more bytes than its output range holds. -/
theorem operation_outfx_length_le {i : Instr} {c : Snapshot} {memBytes : Nat} (h : issueRefusal memBytes i c = none)
    (s : State) : (operation i s c).outfx.length ≤ c.outCap.toNat := by
  obtain hnil | ⟨hlen, -⟩ := operation_outfx (s := s) h
  · simp [hnil]
  · exact hlen.le

/-- Settles O29: a completion is one commit, whose bytes fit the output range. -/
theorem completionFrame : Obligations.CompletionFrame := by
  intro i s t c he h
  obtain ⟨hr, rfl⟩ := exec_next_busy he h
  refine ⟨rfl, rfl, statusBusy_statusDone _, statusHardwired_statusDone _, fun hu a => ?_, fun _ => ?_⟩
  · rw [State.byteAt, complete_buf_nil (operation_outfx_of_not_usesBuffers hu s c), State.byteAt]
  · exact complete_keepsOutside s (operation_outfx_length_le hr s)

/-- Settles O30: an issue is `State.start`. -/
theorem issueFrame : Obligations.IssueFrame := by
  intro i s t he h
  obtain rfl := exec_next_idle he h
  exact ⟨rfl, rfl, statusErr_statusStart _, statusBusy_statusStart _, fun _ => rfl⟩

end Sys2Proof.Machine
end

/-! ## The register window -/

section
namespace Sys2Proof.Machine

/-! ### Which register an access reaches (R28) -/

theorem offset_mod_four (r : Reg) : r.offset % 4 = 0 := by cases r <;> rfl

theorem offset_lt (r : Reg) : r.offset < 0x1C := by cases r <;> decide

@[simp] theorem regAt_offset (r : Reg) : regAt 32 r.offset = some r := by cases r <;> rfl

theorem regAt_eq_some {width offset : Nat} {r : Reg} : regAt width offset = some r ↔ width = 32 ∧ offset = r.offset := by
  constructor
  · intro h
    unfold regAt at h
    split at h
    · rename_i hw
      refine ⟨hw, ?_⟩
      split at h <;> cases h <;> rfl
    · cases h
  · rintro ⟨rfl, rfl⟩
    exact regAt_offset r

/-- The seven registers stand at the multiples of 4 below 0x1C. -/
theorem exists_offset_eq {offset : Nat} (h4 : offset % 4 = 0) (hlt : offset < 0x1C) : ∃ r : Reg, r.offset = offset := by
  obtain ⟨k, rfl⟩ := Nat.dvd_of_mod_eq_zero h4
  have hk : k < 7 := by omega
  interval_cases k
  exacts [⟨.cmd, rfl⟩, ⟨.status, rfl⟩, ⟨.inBase, rfl⟩, ⟨.inLen, rfl⟩, ⟨.outBase, rfl⟩, ⟨.outCap, rfl⟩, ⟨.result, rfl⟩]

theorem regAt_eq_none {width offset : Nat} (h : width ≠ 32 ∨ offset % 4 ≠ 0 ∨ 0x1C ≤ offset) :
    regAt width offset = none := by
  refine Option.eq_none_iff_forall_ne_some.2 fun r hr => ?_
  obtain ⟨rfl, rfl⟩ := regAt_eq_some.1 hr
  have h4 := offset_mod_four r
  have hlt := offset_lt r
  omega

/-! ### What a register access does -/

theorem access_regRead_of_regAt_none {width offset : Nat} (h : regAt width offset = none) (s : State) :
    access (.regRead width offset) s = .refused .registerAccess := by
  simp only [access, h]

theorem access_regWrite_of_regAt_none {width offset : Nat} (h : regAt width offset = none) (v : Word) (s : State) :
    access (.regWrite width offset v) s = .refused .registerAccess := by
  simp only [access, h]

theorem access_regRead (r : Reg) (s : State) : access (.regRead 32 r.offset) s = .next (s.readReg r) := by
  simp only [access, regAt_offset]

theorem access_regWrite (r : Reg) (v : Word) (s : State) : access (.regWrite 32 r.offset v) s = writeReg r v s := by
  simp only [access, regAt_offset]

/-- Settles O33: the accesses without a register are those of another width, unaligned or past RESULT. -/
theorem registerWindowAccess : Obligations.RegisterWindowAccess := by
  intro s width offset v
  refine ⟨fun h => ?_, ?_⟩
  · have hnone := regAt_eq_none h
    exact ⟨access_regRead_of_regAt_none hnone s, access_regWrite_of_regAt_none hnone v s⟩
  · rintro rfl h4 hlt
    obtain ⟨r, rfl⟩ := exists_offset_eq h4 hlt
    exact ⟨r, rfl, access_regWrite r v s, _, _, access_regRead r s⟩

theorem regValue_idle {s : State} (h : s.self.engine = .idle) (r : Reg) : s.regValue r = (s.self.get r, s.draws) := by
  simp [State.regValue, h]

/-- R23 to R26: an operand register takes the value written while IDLE. -/
theorem writeReg_operand_idle {s : State} (h : s.self.engine = .idle) {r : Reg}
    (hr : r ∈ [Reg.inBase, .inLen, .outBase, .outCap]) (v : Word) :
    writeReg r v s = .next { s with self := s.self.setOperand r v } := by
  cases r with
  | inBase | inLen | outBase | outCap => simp [writeReg, h]
  | cmd | status | result => simp at hr

/-- Settles O34: a read while IDLE draws no free value. -/
theorem idleReadsReturnTheRegister : Obligations.IdleReadsReturnTheRegister := by
  intro s r h
  rw [access_regRead, State.readReg, regValue_idle h, State.see]

/-- Settles O35: one register of the window after the other. -/
theorem idleOperandWrites : Obligations.IdleOperandWrites := by
  intro s v h
  have writes : ∀ r ∈ [Reg.inBase, .inLen, .outBase, .outCap],
      access (.regWrite 32 r.offset v) s = .next { s with self := s.self.setOperand r v } := fun r hr => by
    rw [access_regWrite, writeReg_operand_idle h hr]
  exact ⟨writes .inBase (by decide), writes .inLen (by decide), writes .outBase (by decide), writes .outCap (by decide)⟩

/-- Settles O37: a write reaches STATUS or RESULT, which ignores it. -/
theorem readOnlyRegistersIgnoreWrites : Obligations.ReadOnlyRegistersIgnoreWrites :=
  fun s v => ⟨access_regWrite .status v s, access_regWrite .result v s⟩

end Sys2Proof.Machine
end

/-! ## What changes the phase, ERR and RESULT -/

section
namespace Sys2Proof.Machine

/-! ### The word of a command in flight -/

/-- A legal command word is the word of its own fields (R70). -/
theorem cmdWord_of_reserved_zero {w : Word} (h : cmdReserved w = 0#28) :
    cmdWord (cmdOp w) (cmdInPresent w) (cmdOutPresent w) = w := by
  have hlt : w.toNat < 16 := by
    have := congrArg BitVec.toNat h
    simp only [cmdReserved, BitVec.extractLsb'_toNat, BitVec.toNat_ofNat] at this
    have := w.isLt
    omega
  obtain ⟨n, rfl⟩ : ∃ n : Fin 16, w = BitVec.ofNat 32 n := ⟨⟨w.toNat, hlt⟩, by simp⟩
  clear h hlt
  revert n
  decide

/-- R70, R71: a word that decodes is the word of its command. -/
theorem encode_of_decodeWord {w : Word} {i : Instr} (h : decodeWord w = .ok i) : encode i = w := by
  unfold decodeWord at h
  split at h
  · rename_i hz
    rw [← cmdWord_of_reserved_zero hz]
    obtain ⟨ho, hm⟩ | ⟨ho, hm⟩ | ⟨ho, hm⟩ | ⟨ho, hm⟩ := opcodeMap_cases (cmdOp w) (cmdInPresent w) (cmdOutPresent w) <;>
      (rw [hm] at h; cases h; rw [ho, encode])
  · cases h

/-! ### The HOST's turn -/

/-- What an access of the HOST keeps unless it issues a command: the phase, STATUS and RESULT (R22, R27, R31). -/
structure KeepsOutcome (s t : State) : Prop where
  engine : t.self.engine = s.self.engine
  status : t.self.status = s.self.status
  result : t.self.result = s.self.result

/-- R21, R22, R27: a register write issues its value as a command word, or keeps the outcome. -/
theorem writeReg_keepsOutcome_or_issues {r : Reg} {v : Word} {s t : State} (h : writeReg r v s = .next t) :
    KeepsOutcome s t ∨ (r = .cmd ∧ s.self.engine = .idle ∧ t = s.start (s.self.snapshot v)) := by
  obtain ⟨hr, he, i, hi, hx⟩ | rfl | ⟨-, rfl⟩ := writeReg_next h
  · refine .inr ⟨hr, he, ?_⟩
    rw [← encode_of_decodeWord hi]
    exact exec_next_idle he hx
  · exact .inl ⟨rfl, rfl, rfl⟩
  · exact .inl ⟨setOperand_engine .., setOperand_status .., setOperand_result ..⟩

/-- Only a CMD write among the accesses of the HOST changes the outcome, and that by the issue of its word. -/
theorem access_keepsOutcome_or_issues {op : HostOp} {s t : State} (h : access op s = .next t) :
    KeepsOutcome s t ∨
      ∃ v, op = .regWrite 32 0x00 v ∧ s.self.engine = .idle ∧ t = s.start (s.self.snapshot v) := by
  cases op with
  | regWrite width offset v =>
    simp only [access] at h
    split at h
    · rename_i r hat
      obtain hk | ⟨rfl, he, rfl⟩ := writeReg_keepsOutcome_or_issues h
      · exact .inl hk
      · obtain ⟨rfl, rfl⟩ := regAt_eq_some.1 hat
        exact .inr ⟨v, rfl, he, rfl⟩
    · cases h
  | regRead | memRead | memWrite =>
    simp only [access] at h
    split at h <;> cases h
    exact .inl ⟨rfl, rfl, rfl⟩
  | wait => cases h; exact .inl ⟨rfl, rfl, rfl⟩

/-- The HOST's turn keeps the outcome, or its next access is the CMD write that issues a command. -/
theorem hostStep_keepsOutcome_or_issues {s t : State} (h : hostStep s = .next t) :
    KeepsOutcome s t ∨ (s.self.engine = .idle ∧ ∃ v rest, s.self.host = .regWrite 32 0x00 v :: rest ∧
      t = s.popHost.start (s.self.snapshot v)) := by
  obtain ⟨-, rfl⟩ | rfl | ⟨op, rest, hhost, ha⟩ := hostStep_next h
  · exact .inl ⟨rfl, rfl, rfl⟩
  · exact .inl ⟨rfl, rfl, rfl⟩
  · obtain ⟨hengine, hstatus, hresult⟩ | ⟨v, rfl, he, rfl⟩ := access_keepsOutcome_or_issues ha
    · exact .inl ⟨hengine, hstatus, hresult⟩
    · exact .inr ⟨he, v, rest, hhost, rfl⟩

/-- Settles O54: the one HOST step that writes STATUS is an issue, and it sets BUSY alone. -/
theorem hostNeverWritesErrOrResult : Obligations.HostNeverWritesErrOrResult := by
  intro s t h
  obtain hk | ⟨-, v, rest, -, rfl⟩ := hostStep_keepsOutcome_or_issues h
  · exact ⟨by rw [hk.status], hk.result⟩
  · exact ⟨statusErr_statusStart _, rfl⟩

/-! ### The ENGINE's turn and reset -/

/-- R82: the ENGINE's step does nothing, or takes BUSY to IDLE. -/
theorem engineStep_phase {s t : State} (h : engineStep s = .next t) :
    t = s ∨ (s.self.engine.isBusy = true ∧ t.self.engine = .idle) := by
  obtain ⟨-, rfl⟩ | ⟨c, i, he, -, hx⟩ := engineStep_next h
  · exact .inl rfl
  · obtain ⟨-, rfl⟩ := exec_next_busy he hx
    exact .inr ⟨by rw [he, isBusy_busy], complete_engine ..⟩

theorem reset1_engine {s t : State} (h : s.reset1 = .next t) : t.self.engine = .idle := by
  obtain ⟨-, rfl⟩ := reset1_next h
  exact resetRegs_engine _

/-- Settles O53: the phase after each kind of turn. -/
theorem phaseChangesOnlyByIssueCompletionReset : Obligations.PhaseChangesOnlyByIssueCompletionReset := by
  intro u s t hu h
  cases u with
  | host =>
    obtain hk | ⟨he, v, rest, hhost, rfl⟩ := hostStep_keepsOutcome_or_issues h
    · exact .inl hk.engine
    · exact .inr (.inl ⟨rfl, he, v, rest, hhost, rfl, rfl⟩)
  | engine =>
    obtain rfl | ⟨hbusy, hidle⟩ := engineStep_phase h
    · exact .inl rfl
    · exact .inr (.inr (.inl ⟨rfl, hbusy, hidle⟩))
  | reset => exact .inr (.inr (.inr ⟨rfl, reset1_engine h⟩))
  | switch k => exact absurd rfl (hu k)

/-! ### The state after reset -/

/-- Settles O45: the one codec after reset is a codec that reset has reached (R190). -/
theorem resetMeetsTheInvariant : Obligations.ResetMeetsTheInvariant := by
  have hself : Codec.afterReset.Ok State.reset.params.memBytes := Codec.ok_resetRegs _ Codec.afterReset
  exact ⟨by decide, ⟨.nil, by simp [State.reset]⟩, by simpa using hself, List.pairwise_singleton _ _⟩

end Sys2Proof.Machine
end

/-! ## The protected range -/

section
namespace Sys2Proof.Machine

open Sys2Proof.Claims (InRange)

theorem input_has {c : Snapshot} {a : Nat} : c.input.has a = true ↔ InRange c.inBase.toNat c.inLen.toNat a := range_has

theorem output_has {c : Snapshot} {a : Nat} : c.output.has a = true ↔ InRange c.outBase.toNat c.outCap.toNat a :=
  range_has

/-- A codec owns a byte when one of its protected ranges has it (R55). -/
theorem protects_iff {x : Codec} {a : Nat} : x.protects a = true ↔ ∃ r ∈ x.engine.protectedRanges, r.has a = true :=
  List.any_eq_true

theorem usesBuffers_of_decodeWord {c : Snapshot} {i : Instr} (h : decodeWord c.cmd = .ok i) :
    c.usesBuffers = Instr.usesBuffers i := by
  simp only [Snapshot.usesBuffers, h]

theorem protectedRanges_of_usesBuffers {c : Snapshot} (h : c.usesBuffers = true) :
    c.protectedRanges = [c.input, c.output] := by
  rw [Snapshot.protectedRanges, if_pos h]

theorem protectedRanges_of_not_usesBuffers {c : Snapshot} (h : c.usesBuffers = false) : c.protectedRanges = [] := by
  rw [Snapshot.protectedRanges, h, if_neg Bool.false_ne_true]

/-- The bytes of the protected range of a command that uses its buffers. -/
theorem exists_protectedRange_has {c : Snapshot} (h : c.usesBuffers = true) {a : Nat} :
    (∃ r ∈ c.protectedRanges, r.has a = true) ↔
      InRange c.inBase.toNat c.inLen.toNat a ∨ InRange c.outBase.toNat c.outCap.toNat a := by
  simp [protectedRanges_of_usesBuffers h, input_has, output_has]

theorem protects_busy {x : Codec} {c : Snapshot} (hx : x.engine = .busy c) (h : c.usesBuffers = true) {a : Nat} :
    x.protects a = true ↔ InRange c.inBase.toNat c.inLen.toNat a ∨ InRange c.outBase.toNat c.outCap.toNat a := by
  rw [protects_iff, hx]
  exact exists_protectedRange_has h

/-- Settles O22: the protected range follows from whether the decoded command uses its buffers. -/
theorem protectedRangeIsBothBuffers : Obligations.ProtectedRangeIsBothBuffers := by
  intro c
  have owns : ∀ {i}, decodeWord c.cmd = .ok i → Instr.usesBuffers i = true → c.usesBuffers = true :=
    fun hd hi => (usesBuffers_of_decodeWord hd).trans hi
  have empty : ∀ {i}, decodeWord c.cmd = .ok i → Instr.usesBuffers i = false → c.protectedRanges = [] :=
    fun hd hi => protectedRanges_of_not_usesBuffers ((usesBuffers_of_decodeWord hd).trans hi)
  refine ⟨fun hd x hx a => protects_busy hx ?_, fun ip op hb hd => ?_, fun ip op hd => ?_⟩
  · exact hd.elim (owns · rfl) (owns · rfl)
  · exact hd.elim (empty · hb) (empty · hb)
  · exact hd.elim (empty · rfl) (empty · rfl)

end Sys2Proof.Machine
end

/-! ## The issue of ENCODE and DECODE -/

section
namespace Sys2Proof.Machine

open Sys2Proof.Claims (InRange SnapshotAccepts Unshared MayIssue Issued)

/-- R56: no byte is in both ranges of a snapshot. -/
theorem input_overlaps_output_eq_false {c : Snapshot} : c.input.overlaps c.output = false ↔
    ∀ a, InRange c.inBase.toNat c.inLen.toNat a → ¬ InRange c.outBase.toNat c.outCap.toNat a := by
  rw [Bool.eq_false_iff, ne_eq, overlaps_iff]
  simp only [input_has, output_has, not_exists, not_and]

/-- R81: the buffer checks are the issue conditions. -/
theorem bufferRefusal_eq_none_iff_accepts {memBytes : Nat} {c : Snapshot} {bound : Nat} :
    bufferRefusal memBytes c bound = none ↔ SnapshotAccepts memBytes c bound := by
  rw [bufferRefusal_eq_none, input_overlaps_output_eq_false]
  rfl

/-- R62: two protected ranges meet when they share a byte. -/
theorem rangesMeet_iff {rs qs : List Range} : rangesMeet rs qs = true ↔
    ∃ a, (∃ r ∈ rs, r.has a = true) ∧ ∃ q ∈ qs, q.has a = true := by
  simp only [rangesMeet, List.any_eq_true, overlaps_iff]
  constructor
  · rintro ⟨r, hr, q, hq, a, hra, hqa⟩; exact ⟨a, ⟨r, hr, hra⟩, q, hq, hqa⟩
  · rintro ⟨a, ⟨r, hr, hra⟩, q, hq, hqa⟩; exact ⟨r, hr, q, hq, a, hra, hqa⟩

/-- R62: no byte of `rs` is owned by `y` exactly when their protected ranges do not meet. -/
theorem rangesMeet_eq_false {rs : List Range} {y : Codec} : rangesMeet rs y.engine.protectedRanges = false ↔
    ∀ a, (∃ r ∈ rs, r.has a = true) → y.protects a = false := by
  rw [Bool.eq_false_iff, ne_eq, rangesMeet_iff]
  simp only [← protects_iff, not_exists, not_and, Bool.not_eq_true]

/-- R62: the check against the other codecs, for a command that uses its buffers. -/
theorem sharesBuffer_eq_false_iff_unshared {c : Snapshot} (h : c.usesBuffers = true) {s : State} :
    sharesBuffer c s.others = false ↔
      Unshared s c.inBase.toNat c.inLen.toNat c.outBase.toNat c.outCap.toNat := by
  rw [sharesBuffer, List.any_eq_false]
  simp only [Bool.not_eq_true, rangesMeet_eq_false, exists_protectedRange_has h, Unshared]

/-- R81: while IDLE a command whose checks all pass is issued. -/
theorem exec_idle_accepted {i : Instr} {s : State} (he : s.self.engine = .idle)
    (hr : issueRefusal s.params.memBytes i (s.self.snapshot (encode i)) = none)
    (hs : sharesBuffer (s.self.snapshot (encode i)) s.others = false) :
    exec i s = .next (Issued s (encode i)) := by
  rw [exec_idle he, issue]
  simp only [hr, hs]
  rfl

/-- R81: while IDLE a command is refused when any of its checks fails. -/
theorem exec_idle_refused {i : Instr} {s : State} (he : s.self.engine = .idle)
    (h : ¬ (issueRefusal s.params.memBytes i (s.self.snapshot (encode i)) = none ∧
      sharesBuffer (s.self.snapshot (encode i)) s.others = false)) : ∃ r, exec i s = .refused r := by
  cases hx : exec i s with
  | next t =>
    obtain ⟨-, hr, hs, -⟩ | ⟨c, hc, -⟩ := exec_next hx
    · exact absurd ⟨hr, hs⟩ h
    · rw [he] at hc; cases hc
  | fault r => exact absurd hx (exec_not_fault i s r)
  | refused r => exact ⟨r, rfl⟩

/-- R81: ENCODE and DECODE with both buffers are issued under the same conditions, each with its own bound. -/
theorem exec_idle_iff_mayIssue {i : Instr} {s : State} {bound : Nat} (he : s.self.engine = .idle)
    (hu : Instr.usesBuffers i = true)
    (hb : issueRefusal s.params.memBytes i (s.self.snapshot (encode i)) =
      bufferRefusal s.params.memBytes (s.self.snapshot (encode i)) bound) :
    (MayIssue s bound → exec i s = .next (Issued s (encode i))) ∧
      (¬ MayIssue s bound → ∃ r, exec i s = .refused r) := by
  have hmay : MayIssue s bound ↔ issueRefusal s.params.memBytes i (s.self.snapshot (encode i)) = none ∧
      sharesBuffer (s.self.snapshot (encode i)) s.others = false := by
    rw [hb, bufferRefusal_eq_none_iff_accepts,
      sharesBuffer_eq_false_iff_unshared ((usesBuffers_of_decodeWord (decodeWord_encode i)).trans hu)]
    rfl
  rw [hmay]
  exact ⟨fun ⟨hr, hs⟩ => exec_idle_accepted he hr hs, exec_idle_refused he⟩

/-- Settles O20: the issue conditions with the bound of ENCODE. -/
theorem encodeIssuesUnderItsConditions : Obligations.EncodeIssuesUnderItsConditions :=
  fun _ he => exec_idle_iff_mayIssue (i := .encode true true) he rfl rfl

/-- Settles O21: the issue conditions with the bound of DECODE. -/
theorem decodeIssuesUnderItsConditions : Obligations.DecodeIssuesUnderItsConditions :=
  fun _ he => exec_idle_iff_mayIssue (i := .decode true true) he rfl rfl

/-- R52, R56, R57: an accepted command that uses its buffers meets the issue conditions with some bound. -/
theorem exists_accepts_of_issueRefusal_eq_none {i : Instr} {c : Snapshot} {memBytes : Nat}
    (h : issueRefusal memBytes i c = none) (hu : Instr.usesBuffers i = true) : ∃ bound, SnapshotAccepts memBytes c bound := by
  cases i with
  | encode ip op | decode ip op =>
    simp only [Instr.usesBuffers] at hu
    simp only [issueRefusal, hu, if_true] at h
    exact ⟨_, bufferRefusal_eq_none_iff_accepts.1 h⟩
  | encBound ip op | decBound ip op => cases hu

/-- Settles O31: an issue is `State.start`; a completion writes no byte, or its output range, which misses the input. -/
theorem inputIsNeverChanged : Obligations.InputIsNeverChanged := by
  intro i s t h
  refine ⟨fun he a => ?_, fun c he => ?_⟩
  · obtain rfl := exec_next_idle he h
    rfl
  · obtain ⟨-, -, -, -, hkeeps, houtside⟩ := completionFrame i s t c he h
    cases hu : Instr.usesBuffers i with
    | false => exact ⟨fun a _ => hkeeps hu a, fun a _ => hkeeps hu a⟩
    | true =>
      obtain ⟨bound, -, -, hdisjoint, -⟩ := exists_accepts_of_issueRefusal_eq_none (exec_next_busy he h).1 hu
      exact ⟨fun a ha => houtside hu a (hdisjoint a ha), houtside hu⟩

end Sys2Proof.Machine
end

/-! ## Byte accesses of the HOST -/

section
namespace Sys2Proof.Machine

theorem byteRefusal_hostAddress {s : State} {a : Nat} (h : s.params.memBytes ≤ a) :
    s.byteRefusal a = some .hostAddress := by
  rw [State.byteRefusal, if_pos h]

/-- R59, R62: below MEM_BYTES an access is refused exactly when some codec owns the byte. -/
theorem byteRefusal_of_lt {s : State} {a : Nat} (h : a < s.params.memBytes) :
    s.byteRefusal a = if (s.self :: s.others).any (·.protects a) then some .protectedByte else none := by
  rw [State.byteRefusal, if_neg (Nat.not_le.2 h), List.any_cons]

theorem byteRefusal_protectedByte {s : State} {a : Nat} (h : a < s.params.memBytes)
    (hp : ∃ x ∈ s.self :: s.others, x.protects a = true) : s.byteRefusal a = some .protectedByte := by
  rw [byteRefusal_of_lt h, if_pos (List.any_eq_true.2 hp)]

theorem byteRefusal_eq_none {s : State} {a : Nat} (h : a < s.params.memBytes)
    (hp : ∀ x ∈ s.self :: s.others, x.protects a = false) : s.byteRefusal a = none := by
  have hany : (s.self :: s.others).any (·.protects a) = false := by simpa [List.any_eq_false] using hp
  rw [byteRefusal_of_lt h, hany, if_neg Bool.false_ne_true]

theorem access_byte_refused {s : State} {a : Nat} {r : Refusal} (h : s.byteRefusal a = some r) (b : Byte) :
    access (.memRead a) s = .refused r ∧ access (.memWrite a b) s = .refused r := by
  simp only [access, h, and_self]

theorem access_memRead {s : State} {a : Nat} (h : s.byteRefusal a = none) :
    access (.memRead a) s = .next (s.see (.mem a (s.byteAt a))) := by
  simp only [access, h]

theorem access_memWrite {s : State} {a : Nat} (h : s.byteRefusal a = none) (b : Byte) :
    access (.memWrite a b) s = .next { s with buf := Memory.write s.buf a b } := by
  simp only [access, h]

/-- Settles O38: the three cases of `byteRefusal`. -/
theorem hostByteAccess : Obligations.HostByteAccess := by
  intro s a b
  refine ⟨fun h => ?_, fun h hp => ?_, fun h hp => ?_⟩
  · exact access_byte_refused (byteRefusal_hostAddress h) b
  · exact access_byte_refused (byteRefusal_protectedByte h hp) b
  · have hnone := byteRefusal_eq_none h hp
    refine ⟨access_memRead hnone, _, access_memWrite hnone b, rfl, byteAt_write_same s.buf a b, fun x hx => ?_⟩
    exact byteAt_write_other b fun hxa => hx ⟨by omega, by omega⟩

end Sys2Proof.Machine
end

/-! ## Codecs do not interact -/

section
namespace Sys2Proof.Machine

/-- Every byte that another codec owns keeps its value. -/
def KeepsOwned (s t : State) : Prop := ∀ y ∈ s.others, ∀ a, y.protects a = true → t.byteAt a = s.byteAt a

theorem KeepsOwned.of_buf {s t : State} (h : t.buf = s.buf) : KeepsOwned s t := fun _ _ a _ => by
  rw [State.byteAt, h, State.byteAt]

/-- R62, R196: the codec in focus owns no byte that another one owns. -/
theorem State.Inv.self_protects_eq_false {s : State} (h : s.Inv) {y : Codec} (hy : y ∈ s.others) {a : Nat}
    (ha : y.protects a = true) : s.self.protects a = false := by
  rw [Bool.eq_false_iff, ne_eq, protects_iff]
  intro hself
  rw [rangesMeet_eq_false.1 (h.self_disjoint y hy) a hself] at ha
  cases ha

/-- A turn that writes only bytes of its own protected range keeps what the others own. -/
theorem State.Inv.keepsOwned {s t : State} (h : s.Inv)
    (ht : ∀ a, s.self.protects a = false → t.byteAt a = s.byteAt a) : KeepsOwned s t :=
  fun _ hy a ha => ht a (h.self_protects_eq_false hy ha)

/-- R54, R82: the ENGINE's step writes only bytes of its protected range. -/
theorem engineStep_byteAt {s t : State} (h : engineStep s = .next t) {a : Nat} (ha : s.self.protects a = false) :
    t.byteAt a = s.byteAt a := by
  obtain ⟨-, rfl⟩ | ⟨c, i, he, hi, hx⟩ := engineStep_next h
  · rfl
  · obtain ⟨-, -, -, -, hkeeps, houtside⟩ := completionFrame i s t c he hx
    cases hu : Instr.usesBuffers i with
    | false => exact hkeeps hu a
    | true =>
      refine houtside hu a fun hout => ?_
      rw [(protects_busy he ((usesBuffers_of_decodeWord hi).trans hu)).2 (.inr hout)] at ha
      cases ha

/-- R191: an abandoned output range is part of the protected range. -/
theorem protects_of_abandoned_has {x : Codec} {a : Nat} (h : x.engine.abandoned.has a = true) : x.protects a = true := by
  cases he : x.engine with
  | idle => simp [he, Engine.abandoned, range_has] at h
  | busy c =>
    cases hu : c.usesBuffers with
    | false => simp [he, Engine.abandoned, hu, range_has] at h
    | true =>
      rw [he, Engine.abandoned, if_pos hu, output_has] at h
      exact (protects_busy he hu).2 (.inr h)

/-- R191: reset writes only bytes of the protected range of the command it abandons. -/
theorem reset1_byteAt {s t : State} (h : s.reset1 = .next t) {a : Nat} (ha : s.self.protects a = false) :
    t.byteAt a = s.byteAt a := by
  obtain ⟨-, rfl⟩ := reset1_next h
  have hout : ¬ s.self.engine.abandoned.has a = true := fun hhas => by
    rw [protects_of_abandoned_has hhas] at ha; cases ha
  rw [range_has] at hout
  exact byteAt_writeBytes_outside (by rw [drawBytes_length, List.length_replicate]; omega)

/-- R81: a register write changes no byte of BUF, a CMD write included. -/
theorem writeReg_buf {r : Reg} {v : Word} {s t : State} (h : writeReg r v s = .next t) : t.buf = s.buf := by
  obtain ⟨-, he, i, -, hx⟩ | rfl | ⟨-, rfl⟩ := writeReg_next h
  · rw [exec_next_idle he hx, start_buf]
  · rfl
  · rfl

/-- R58, R62: the byte that an access writes is owned by no codec. -/
theorem access_keepsOwned {op : HostOp} {s t : State} (h : access op s = .next t) : KeepsOwned s t := by
  obtain ⟨r, rfl⟩ | ⟨a, -, rfl⟩ | ⟨a, b, -, -, hfree, rfl⟩ | ⟨r, v, hw⟩ := access_next h
  · exact .of_buf (readReg_buf ..)
  · exact .of_buf (see_buf ..)
  · intro y hy x hx
    refine byteAt_write_other b ?_
    rintro rfl
    rw [hfree y hy] at hx
    cases hx
  · exact .of_buf (writeReg_buf hw)

theorem hostStep_keepsOwned {s t : State} (h : hostStep s = .next t) : KeepsOwned s t := by
  obtain ⟨-, rfl⟩ | rfl | ⟨op, rest, -, ha⟩ := hostStep_next h
  · exact .of_buf rfl
  · exact .of_buf (readReg_buf ..)
  · exact (access_keepsOwned ha : KeepsOwned s.popHost t)

/-- R196: each kind of turn but a change of focus keeps what the others own. -/
theorem takeTurn_keepsOwned {u : Turn} {s t : State} (hu : ∀ k, u ≠ .switch k) (h : takeTurn u s = .next t)
    (hinv : s.Inv) : KeepsOwned s t := by
  cases u with
  | host => exact hostStep_keepsOwned h
  | engine => exact hinv.keepsOwned fun _ => engineStep_byteAt h
  | reset => exact hinv.keepsOwned fun _ => reset1_byteAt h
  | switch k => exact absurd rfl (hu k)

@[simp] theorem focus_draws (s : State) (k : Nat) : (s.focus k).draws = s.draws := by
  obtain h | ⟨x, -, h⟩ := focus_cases s k <;> rw [h]

@[simp] theorem focus_schedule (s : State) (k : Nat) : (s.focus k).schedule = s.schedule := by
  obtain h | ⟨x, -, h⟩ := focus_cases s k <;> rw [h]

/-- Settles O52: a turn has the frame of its codec and keeps what the others own; a change of focus permutes. -/
theorem instancesDoNotInteract : Obligations.InstancesDoNotInteract := by
  refine ⟨fun u s t hu h => ⟨(takeTurn_keepsFrame hu h).others, takeTurn_keepsOwned hu h⟩, fun s t k h => ?_⟩
  cases h
  exact ⟨focus_perm s k, focus_buf s k, focus_draws s k, focus_schedule s k⟩

end Sys2Proof.Machine
end

/-! ## The words that are commands -/

section
namespace Sys2Proof.Machine

/-- R70: the reserved bits [31:4] are 0 exactly in the words below 16. -/
theorem cmdReserved_eq_zero_iff {w : Word} : cmdReserved w = 0#28 ↔ w.toNat < 16 := by
  have hw := w.isLt
  rw [← BitVec.toNat_inj, cmdReserved, BitVec.extractLsb'_toNat, Nat.shiftRight_eq_div_pow]
  simp only [BitVec.toNat_ofNat]
  omega

/-- R73: a word without a reserved bit is a command, and no other word is. -/
theorem exists_decodeWord_eq_ok_iff {w : Word} : (∃ i, decodeWord w = .ok i) ↔ cmdReserved w = 0#28 := by
  constructor
  · rintro ⟨i, hi⟩
    rw [← encode_of_decodeWord hi]
    exact cmdReserved_encode i
  · intro h
    exact ⟨_, if_pos h⟩

/-- Settles O1: the encoder and the decoder are inverse to each other on the words without a reserved bit. -/
theorem commandWordsHaveOneMeaning : Obligations.CommandWordsHaveOneMeaning :=
  ⟨decodeWord_encode, fun _ _ => encode_of_decodeWord,
    fun _ => cmdReserved_eq_zero_iff.symm.trans exists_decodeWord_eq_ok_iff.symm⟩

/-- Settles O2: the decoder evaluates on each of the ten words. -/
theorem writtenOutWordsDecode : Obligations.WrittenOutWordsDecode := by
  unfold Obligations.WrittenOutWordsDecode
  decide

end Sys2Proof.Machine
end

/-! ## A command in flight completes -/

section
namespace Sys2Proof.Machine

/-- R81: under the invariant the command in flight is a command that has passed its issue checks. -/
theorem State.Inv.accepted {s : State} (h : s.Inv) {c : Snapshot} (he : s.self.engine = .busy c) :
    ∃ i, decodeWord c.cmd = .ok i ∧ issueRefusal s.params.memBytes i c = none := by
  obtain ⟨-, -, -, -, hacc⟩ := h.self_ok
  rw [he, Engine.accepted] at hacc
  split at hacc
  · rename_i i hi
    exact ⟨i, hi, Option.isNone_iff_eq_none.1 hacc⟩
  · cases hacc

/-- R82: the ENGINE's step commits the result of an accepted command. -/
theorem engineStep_accepted {s : State} {c : Snapshot} {i : Instr} (he : s.self.engine = .busy c)
    (hi : decodeWord c.cmd = .ok i) (hr : issueRefusal s.params.memBytes i c = none) :
    engineStep s = .next (s.complete c (operation i s c)) := by
  rw [engineStep_busy he hi, exec_busy he hr]

/-- Settles O48: a command in flight has passed its issue checks, so its commit is taken. -/
theorem commandInFlightCompletes : Obligations.CommandInFlightCompletes := by
  intro s c h he
  obtain ⟨i, hi, hr⟩ := h.accepted he
  exact ⟨_, engineStep_accepted he hi hr, complete_engine .., statusBusy_statusDone _⟩

end Sys2Proof.Machine
end

/-! ## `WAIT` -/

section
namespace Sys2Proof.Machine

theorem statusBusy_statusWhileBusy (e : BitVec 2) : statusBusy (statusWhileBusy e) = true := by
  simp [statusBusy, statusWhileBusy]

/-- R22, R194: STATUS while BUSY reads BUSY = 1 with a free ERR. -/
theorem regValue_status_busy {s : State} {c : Snapshot} (h : s.self.engine = .busy c) :
    s.regValue .status = (statusWhileBusy (Config.freeErr s.draws), s.draws + 1) := by
  simp [State.regValue, h]

section
variable {s : State} {rest : List HostOp} (hh : s.self.host = .wait :: rest)
include hh

/-- R78: a poll that reads BUSY = 1 leaves `WAIT` the next access. -/
theorem hostStep_wait_stays (h : statusBusy (s.regValue .status).1 = true) : hostStep s = .next (s.readReg .status) := by
  rw [hostStep, hh]
  exact if_pos h

/-- R78: a poll that reads BUSY = 0 ends `WAIT`. -/
theorem hostStep_wait_ends (h : statusBusy (s.regValue .status).1 = false) :
    hostStep s = .next (s.popHost.readReg .status) := by
  rw [hostStep, hh]
  exact if_neg (Bool.eq_false_iff.1 h)

/-- While IDLE the poll reads the stored STATUS. -/
theorem hostStep_wait_idle (he : s.self.engine = .idle) (hb : statusBusy s.self.status = false) :
    hostStep s = .next { s with
      self := { s.self with host := rest, seen := .reg .status s.self.status :: s.self.seen } } := by
  rw [hostStep_wait_ends hh (by rw [regValue_idle he]; exact hb), State.readReg, regValue_idle (s := s.popHost) he]
  simp only [State.popHost, State.see, hh, List.tail_cons]
  rfl

end

/-- Settles O39: the poll stays while BUSY and ends while IDLE. -/
theorem waitPollsUntilIdle : Obligations.WaitPollsUntilIdle := by
  intro s rest hh
  refine ⟨fun c he => ⟨Config.freeErr s.draws, s.draws + 1, ?_⟩, hostStep_wait_idle hh⟩
  have hv := regValue_status_busy he
  rw [hostStep_wait_stays hh (by rw [hv]; exact statusBusy_statusWhileBusy _), State.readReg, hv, statusWhileBusy,
    BitVec.or_comm, State.see]

end Sys2Proof.Machine
end

/-! ## The transcriber -/

section
namespace Sys2Proof.Machine

/-- R77: an immediate that is read is in range. -/
theorem parseImm_immOk {t : List Char} {n : Nat} (h : parseImm t = .ok n) : immOk n = true := by
  simp only [parseImm] at h
  split at h
  · rename_i hn
    cases h
    exact (Option.filter_eq_some_iff.1 hn).2
  · cases h

theorem parseImms_immOk {ts : List (List Char)} {ns : List Nat} (h : parseImms ts = .ok ns) :
    ∀ n ∈ ns, immOk n = true := by
  induction ts generalizing ns with
  | nil => cases h; simp
  | cons t ts ih =>
    rw [parseImms] at h
    split at h
    · rename_i ht hts
      cases h
      exact List.forall_mem_cons.2 ⟨parseImm_immOk ht, ih hts⟩
    · cases h
    · cases h

/-- R77, R78: the immediates of a statement that is read are in range, and the bytes of MEMW are bytes. -/
theorem parseStmt_wellFormed {word : List Char} {args : List (List Char)} {st : HostStmt}
    (h : parseStmt word args = .ok st) : st.wellFormed = true := by
  unfold parseStmt at h
  split at h
  case isTrue => -- WR
    split at h
    · split at h <;> cases h
      exact parseImm_immOk ‹_›
    · cases h
  split at h
  case isTrue => -- RD
    split at h
    · split at h <;> cases h
      rfl
    · cases h
  split at h
  case isTrue => -- WAIT
    split at h <;> cases h
    rfl
  split at h
  case isTrue => -- MEMW
    split at h
    · rename_i himms
      have himm := parseImms_immOk himms
      split at h <;> cases h
      rename_i hbytes
      simpa [HostStmt.wellFormed, hbytes] using himm _ List.mem_cons_self
    · cases h
    · cases h
  iterate 5 -- MEMR, ENCODE, DECODE, ENCBOUND, DECBOUND
    split at h
    case isTrue =>
      split at h <;> cases h
      rename_i himms
      simpa [HostStmt.wellFormed, and_assoc] using parseImms_immOk himms
  cases h

/-- A line holds no statement or a well-formed one. -/
theorem parseLine_wellFormed {t : List Char} {o : Option HostStmt} (h : parseLine t = .ok o) :
    ∀ st ∈ o, st.wellFormed = true := by
  simp only [parseLine] at h
  split at h
  · cases h; simp
  · split at h <;> cases h
    rename_i hst
    simpa using parseStmt_wellFormed hst

theorem parseLines_wellFormed {n : Nat} {ts : List (List Char)} {p : List HostStmt} (h : parseLines n ts = .ok p) :
    ∀ st ∈ p, st.wellFormed = true := by
  induction ts generalizing n p with
  | nil => cases h; simp
  | cons t ts ih =>
    rw [parseLines] at h
    split at h
    · cases h
    · rename_i o ho
      split at h <;> cases h
      rename_i sts hsts
      simp only [List.mem_append, Option.mem_toList]
      rintro st (hst | hst)
      · exact parseLine_wellFormed ho st hst
      · exact ih hsts st hst

/-- Settles O58: line by line. -/
theorem transcribedProgramsAreWellFormed : Obligations.TranscribedProgramsAreWellFormed :=
  fun _ _ h => parseLines_wellFormed h

end Sys2Proof.Machine
end

/-! ## Decoding gives back what was encoded -/

section
namespace Sys2Proof.Machine

open Sys2Proof.Claims (before)

theorem before_before (p q : List Byte) (r : DecodeResult) : before p (before q r) = before (p ++ q) r := by
  cases r <;> simp [before]

/-- The closed blocks `d` stand for the bytes `p`: what comes behind `d` decodes as it does alone, with `p` put first. -/
def DecodesBefore (d p : List Byte) : Prop := ∀ y ≠ [], cobsDecode (d ++ y) = before p (cobsDecode y)

theorem DecodesBefore.nil : DecodesBefore [] [] := fun y _ => by
  cases h : cobsDecode y <;> simp [before, h]

/-- The code byte of at most 254 literals. -/
theorem toNat_code {l : List Byte} (hlen : l.length ≤ 254) : (BitVec.ofNat 8 (l.length + 1)).toNat = l.length + 1 := by
  rw [BitVec.toNat_ofNat, Nat.mod_eq_of_lt (by omega)]

theorem code_ne_zero {l : List Byte} (hlen : l.length ≤ 254) : BitVec.ofNat 8 (l.length + 1) ≠ 0#8 := fun h => by
  have := toNat_code hlen
  rw [h, BitVec.toNat_ofNat] at this
  omega

/-- R127: one more closed block adds its literals, and a zero unless it is full. -/
theorem DecodesBefore.block {d p l : List Byte} (h : DecodesBefore d p) (hl : 0#8 ∉ l) (hlen : l.length ≤ 254) :
    DecodesBefore (d ++ BitVec.ofNat 8 (l.length + 1) :: l) (p ++ l ++ if l.length < 254 then [0#8] else []) := by
  intro y hy
  obtain ⟨b, rest, rfl⟩ := List.exists_cons_of_ne_nil hy
  have hcode := toNat_code hlen
  have hblock := cobsDecode_block (code_ne_zero hlen) hl hcode.symm b rest
  rw [hcode] at hblock
  rw [List.append_assoc, List.cons_append, h _ (List.cons_ne_nil _ _), hblock, before_before]
  simp only [Nat.add_lt_iff_lt_sub_right, List.append_assoc, Nat.reduceSub]

/-- After the payload `x` the encoder holds closed blocks that stand for a first part of `x`, and the rest of `x` as the
literals of the open block. -/
def Encodes (e : EncState) (x : List Byte) : Prop :=
  ∃ d l p : List Byte, e.Holds d l ∧ DecodesBefore d p ∧ 0#8 ∉ l ∧ l.length ≤ 254 ∧ x = p ++ l

theorem Encodes.start : Encodes EncState.start [] :=
  ⟨[], [], [], EncState.start_holds, .nil, List.not_mem_nil, Nat.zero_le _, rfl⟩

/-- R103: one byte more, as a zero or a literal, behind a full block or not. -/
theorem Encodes.byte {e : EncState} {x : List Byte} (h : Encodes e x) (b : Byte) : Encodes (e.byte b) (x ++ [b]) := by
  obtain ⟨d, l, p, hh, hd, hl, hlen, rfl⟩ := h
  obtain ⟨zeroFull, zero, litFull, lit⟩ := hh.byte b
  have closed := hd.block hl hlen
  by_cases hb : b = 0#8 <;> by_cases h254 : l.length = 254
  · have closedTwice := closed.block List.not_mem_nil (Nat.zero_le _)
    simp only [h254] at closedTwice
    exact ⟨_, [], _, zeroFull hb h254, by simpa using closedTwice, by simp, by simp, by simp [hb]⟩
  · have hlt : l.length < 254 := by omega
    exact ⟨_, [], _, zero hb h254, closed, by simp, by simp, by simp [hb, hlt]⟩
  · simp only [h254] at closed
    exact ⟨_, [b], _, litFull hb h254, by simpa using closed, by simpa using Ne.symm hb, by simp, by simp⟩
  · exact ⟨d, l ++ [b], p, lit hb h254, hd, by simpa [hl] using Ne.symm hb, by simp; omega, by simp⟩

theorem Encodes.foldl {e : EncState} {x : List Byte} (h : Encodes e x) (y : List Byte) :
    Encodes (y.foldl EncState.byte e) (x ++ y) := by
  induction y generalizing e x with
  | nil => simpa using h
  | cons b y ih => simpa using ih (h.byte b)

/-- R114: the final block gives the literals that are still missing. -/
theorem cobsDecode_cobsEncode (x : List Byte) : cobsDecode (cobsEncode x) = .ok x := by
  obtain ⟨d, l, p, hh, hd, hl, hlen, hx⟩ := Encodes.start.foldl x
  rw [cobsEncode, hh.close, hd _ (List.cons_ne_nil _ _), cobsDecode_final (code_ne_zero hlen) hl (toNat_code hlen).symm]
  exact congrArg DecodeResult.ok hx.symm

end Sys2Proof.Machine
end

/-! ## Runs of the HOST's accesses without a schedule -/

section
namespace Sys2Proof.Machine

open Sys2Proof.Claims (Accepts SnapshotAccepts Unshared KeepsOutside)

/-! ### Runs step by step -/

theorem run_add {M : Host.Core} {a : Nat} {s t : M.State} (h : M.run a s = .next t) (b : Nat) :
    M.run (a + b) s = M.run b t := by
  induction a generalizing s with
  | zero => cases h; rw [Nat.zero_add]
  | succ a ih =>
    rw [Nat.succ_add]
    simp only [Host.Core.run] at h ⊢
    split at h
    · exact ih h
    · cases h
    · cases h

theorem run_one {s t : State} (h : step s = .next t) : Sys2Proof.core.run 1 s = .next t := by
  have hstep : Sys2Proof.core.step s = .next t := h
  simp only [Host.Core.run, hstep]

theorem run_cons {s t : State} (h : step s = .next t) (k : Nat) : Sys2Proof.core.run (k + 1) s = Sys2Proof.core.run k t := by
  rw [Nat.add_comm, run_add (run_one h)]

/-- The engine is IDLE, no turn is scheduled, and `ops` are the accesses the HOST has still to make. -/
structure Ready (s : State) (ops : List HostOp) : Prop where
  engine : s.self.engine = .idle
  schedule : s.schedule = []
  host : s.self.host = ops

/-- While the HOST has an access to make it moves next (log 3). -/
theorem Ready.step {s : State} {op : HostOp} {ops : List HostOp} (h : Ready s (op :: ops)) : step s = hostStep s :=
  step_unscheduled h.schedule (nextTurn_idle h.schedule h.engine (by simp [h.host]))

theorem Ready.step_access {s : State} {op : HostOp} {ops : List HostOp} (h : Ready s (op :: ops)) (hop : op ≠ .wait) :
    Machine.step s = access op s.popHost := by
  rw [h.step, hostStep_cons h.host hop]

/-! ### Operand writes (R23 to R26) -/

/-- The state after the HOST has written `n` to the operand register `r`. -/
def State.operandWritten (s : State) (r : Reg) (n : Nat) : State :=
  { s.popHost with self := s.popHost.self.setOperand r (BitVec.ofNat 32 n) }

@[simp] theorem operandWritten_buf (s : State) (r : Reg) (n : Nat) : (s.operandWritten r n).buf = s.buf := rfl
@[simp] theorem operandWritten_others (s : State) (r : Reg) (n : Nat) : (s.operandWritten r n).others = s.others := rfl
@[simp] theorem operandWritten_params (s : State) (r : Reg) (n : Nat) : (s.operandWritten r n).params = s.params := rfl

theorem Ready.operandWritten {s : State} {op : HostOp} {ops : List HostOp} (h : Ready s (op :: ops)) (r : Reg) (n : Nat) :
    Ready (s.operandWritten r n) ops := by
  refine ⟨?_, h.schedule, ?_⟩
  · rw [State.operandWritten, setOperand_engine, popHost_engine, h.engine]
  · rw [State.operandWritten, setOperand_host, popHost_host, h.host, List.tail_cons]

theorem Ready.step_operand {s : State} {r : Reg} {n : Nat} {ops : List HostOp} (h : Ready s (wrOp r n :: ops))
    (hr : r ∈ [Reg.inBase, .inLen, .outBase, .outCap]) : Machine.step s = .next (s.operandWritten r n) := by
  rw [h.step_access (by simp [wrOp]), wrOp, access_regWrite, writeReg_operand_idle (s := s.popHost) h.engine hr,
    State.operandWritten]

/-- An immediate in range is the value of its word (R77). -/
theorem toNat_imm {n : Nat} (h : n ≤ 2 ^ 32 - 1) : (BitVec.ofNat 32 n).toNat = n := by
  rw [BitVec.toNat_ofNat, Nat.mod_eq_of_lt (by omega)]

/-! ### A CMD write and the `WAIT` behind it (R81, R82, R78) -/

/-- The state after the HOST's accepted write of the word of the command `i` to CMD. -/
def State.issued (s : State) (i : Instr) : State := s.popHost.start (s.self.snapshot (encode i))

/-- The state after that command's completion. -/
def State.completed (s : State) (i : Instr) : State :=
  (s.issued i).complete (s.self.snapshot (encode i)) (operation i s (s.self.snapshot (encode i)))

/-- The state after the poll of STATUS that ends the `WAIT` behind it. -/
def State.ranCommand (s : State) (i : Instr) : State := (s.completed i).popHost.readReg .status

section
variable (s : State) (i : Instr)

theorem ranCommand_cmd : (s.ranCommand i).self.cmd = encode i := rfl
theorem ranCommand_status : (s.ranCommand i).self.status =
    statusDone (operation i s (s.self.snapshot (encode i))).err.code := rfl
theorem ranCommand_result : (s.ranCommand i).self.result =
    (s.complete (s.self.snapshot (encode i)) (operation i s (s.self.snapshot (encode i)))).self.result := rfl
theorem ranCommand_buf : (s.ranCommand i).buf =
    (s.complete (s.self.snapshot (encode i)) (operation i s (s.self.snapshot (encode i)))).buf := rfl
theorem ranCommand_others : (s.ranCommand i).others = s.others := rfl
theorem ranCommand_params : (s.ranCommand i).params = s.params := rfl

end

/-- What a successful command `i` leaves: its bytes `y` at the start of the output range, and their number in RESULT. -/
structure Produced (s t : State) (i : Instr) (ob oc : Nat) (y : List Byte) : Prop where
  cmd : t.self.cmd = encode i
  status : t.self.status = 0#32
  result : t.self.result.toNat = y.length
  output : t.bytesAt ob y.length = y
  outside : KeepsOutside s t ob oc
  others : t.others = s.others
  params : t.params = s.params

/-- What was produced does not depend on the operand registers before. -/
theorem Produced.of_eq {s u t : State} {i : Instr} {ob oc : Nat} {y : List Byte} (h : Produced u t i ob oc y)
    (hbuf : u.buf = s.buf) (hothers : u.others = s.others) (hparams : u.params = s.params) : Produced s t i ob oc y := by
  obtain ⟨hcmd, hstatus, hresult, houtput, houtside, ho, hp⟩ := h
  refine ⟨hcmd, hstatus, hresult, houtput, fun a ha => ?_, ho.trans hothers, hp.trans hparams⟩
  rw [houtside a ha, State.byteAt, hbuf, State.byteAt]

section
variable {s : State} {i : Instr} {n : Nat} {rest : List HostOp}

theorem Ready.completed {op : HostOp} {ops : List HostOp} (h : Ready s (op :: ops)) (i : Instr) :
    Ready (s.completed i) ops := by
  refine ⟨rfl, h.schedule, ?_⟩
  have hhost : (s.completed i).self.host = s.self.host.tail := rfl
  rw [hhost, h.host, List.tail_cons]

theorem Ready.ranCommand {op : HostOp} (h : Ready s (op :: .wait :: rest)) (i : Instr) : Ready (s.ranCommand i) rest := by
  have hc := h.completed i
  exact ⟨hc.engine, hc.schedule, congrArg List.tail hc.host⟩

/-- R81: the CMD write of a command whose checks all pass issues it. -/
theorem Ready.step_issue {ops : List HostOp} (h : Ready s (wrOp .cmd n :: ops)) (hn : BitVec.ofNat 32 n = encode i)
    (hr : issueRefusal s.params.memBytes i (s.self.snapshot (encode i)) = none)
    (hs : sharesBuffer (s.self.snapshot (encode i)) s.others = false) : Machine.step s = .next (s.issued i) := by
  rw [h.step_access (by simp [wrOp]), wrOp, hn]
  exact (access_writeCmd (s := s.popHost) h.engine (decodeWord_encode i)).trans (exec_idle_accepted h.engine hr hs)

/-- R82: the ENGINE moves next and completes the command (log 3). -/
theorem step_issued (hschedule : s.schedule = [])
    (hr : issueRefusal s.params.memBytes i (s.self.snapshot (encode i)) = none) :
    step (s.issued i) = .next (s.completed i) := by
  have hbusy : (s.issued i).self.engine = .busy (s.self.snapshot (encode i)) := rfl
  have hunscheduled : (s.issued i).schedule = [] := hschedule
  rw [step_unscheduled hunscheduled (nextTurn_busy hunscheduled hbusy)]
  exact engineStep_accepted hbusy (decodeWord_encode i) hr

/-- R78: the poll after the completion reads BUSY = 0 and ends `WAIT`. -/
theorem step_completed (h : Ready (s.completed i) (.wait :: rest)) : step (s.completed i) = .next (s.ranCommand i) := by
  have hbusy : statusBusy ((s.completed i).regValue .status).1 = false := by
    rw [regValue_idle h.engine]
    exact statusBusy_statusDone _
  rw [h.step, hostStep_wait_ends h.host hbusy, State.ranCommand]

/-- R81, R82, R78: an accepted CMD write and the `WAIT` behind it are three steps. -/
theorem Ready.run_command (h : Ready s (wrOp .cmd n :: .wait :: rest)) (hn : BitVec.ofNat 32 n = encode i)
    (hr : issueRefusal s.params.memBytes i (s.self.snapshot (encode i)) = none)
    (hs : sharesBuffer (s.self.snapshot (encode i)) s.others = false) :
    Sys2Proof.core.run 3 s = .next (s.ranCommand i) := by
  rw [run_cons (h.step_issue hn hr hs), run_cons (step_issued h.schedule hr)]
  exact run_one (step_completed (h.completed i))

/-- R106, R130: the commit of a command that succeeds with the bytes `y`. -/
theorem ranCommand_produced {y : List Byte} (hy : y.length ≤ s.self.outCap.toNat)
    (hop : operation i s (s.self.snapshot (encode i)) =
      ⟨.ok, some (BitVec.ofNat 32 y.length), outputFx (s.self.snapshot (encode i)) y⟩) :
    Produced s (s.ranCommand i) i s.self.outBase.toNat s.self.outCap.toNat y := by
  have hcap := s.self.outCap.isLt
  refine ⟨ranCommand_cmd s i, ?_, ?_, ?_, ?_, ranCommand_others s i, ranCommand_params s i⟩
  · rw [ranCommand_status, statusDone_eq_zero, hop]
  · rw [ranCommand_result, hop, complete_result, drawWord_some, toNat_imm (by omega)]
  · rw [State.bytesAt, ranCommand_buf, hop]
    exact (complete_bytesAt_output rfl le_rfl).trans List.take_length
  · intro a ha
    rw [State.byteAt, ranCommand_buf, hop]
    exact complete_keepsOutside s (c := s.self.snapshot (encode i)) (outputFx_length hy).le a ha

end

/-! ### The expansions of ENCODE and DECODE (R79) -/

/-- The state after the four operand writes. -/
def State.operandsWritten (s : State) (ib il ob oc : Nat) : State :=
  (((s.operandWritten .inBase ib).operandWritten .inLen il).operandWritten .outBase ob).operandWritten .outCap oc

theorem operandsWritten_snapshot (s : State) (ib il ob oc : Nat) (w : Word) :
    (s.operandsWritten ib il ob oc).self.snapshot w =
      ⟨w, BitVec.ofNat 32 ib, BitVec.ofNat 32 il, BitVec.ofNat 32 ob, BitVec.ofNat 32 oc⟩ := rfl

theorem operandsWritten_outBase (s : State) (ib il ob oc : Nat) :
    (s.operandsWritten ib il ob oc).self.outBase = BitVec.ofNat 32 ob := rfl
theorem operandsWritten_outCap (s : State) (ib il ob oc : Nat) :
    (s.operandsWritten ib il ob oc).self.outCap = BitVec.ofNat 32 oc := rfl
theorem operandsWritten_buf (s : State) (ib il ob oc : Nat) : (s.operandsWritten ib il ob oc).buf = s.buf := by
  simp [State.operandsWritten]
theorem operandsWritten_others (s : State) (ib il ob oc : Nat) : (s.operandsWritten ib il ob oc).others = s.others := by
  simp [State.operandsWritten]
theorem operandsWritten_params (s : State) (ib il ob oc : Nat) : (s.operandsWritten ib il ob oc).params = s.params := by
  simp [State.operandsWritten]
theorem operandsWritten_bytesAt (s : State) (ib il ob oc a n : Nat) :
    (s.operandsWritten ib il ob oc).bytesAt a n = s.bytesAt a n := by
  rw [State.bytesAt, operandsWritten_buf, State.bytesAt]

/-- The accesses that R79 writes out for ENCODE and DECODE; `n` is the command word. -/
def bufferOps (ib il ob oc n : Nat) : List HostOp :=
  [wrOp .inBase ib, wrOp .inLen il, wrOp .outBase ob, wrOp .outCap oc, wrOp .cmd n, .wait]

/-- Immediates that are in range (R77). -/
structure OperandsOk (ib il ob oc : Nat) : Prop where
  inBase : ib ≤ 2 ^ 32 - 1
  inLen : il ≤ 2 ^ 32 - 1
  outBase : ob ≤ 2 ^ 32 - 1
  outCap : oc ≤ 2 ^ 32 - 1

/-- The statements ENCODE and DECODE are well-formed when their four immediates are in range. -/
theorem OperandsOk.of_immOk {ib il ob oc : Nat} (h : (immOk ib && immOk il && immOk ob && immOk oc) = true) :
    OperandsOk ib il ob oc := by
  simp only [immOk, Bool.and_eq_true, decide_eq_true_eq] at h
  obtain ⟨⟨⟨hib, hil⟩, hob⟩, hoc⟩ := h
  exact ⟨hib, hil, hob, hoc⟩

theorem snapshot_usesBuffers (x : Codec) (i : Instr) : (x.snapshot (encode i)).usesBuffers = Instr.usesBuffers i :=
  usesBuffers_of_decodeWord (c := x.snapshot (encode i)) (decodeWord_encode i)

section
variable {s : State} {i : Instr} {ib il ob oc n bound : Nat} {rest : List HostOp}

theorem Ready.operandsWritten (h : Ready s (bufferOps ib il ob oc n ++ rest)) :
    Ready (s.operandsWritten ib il ob oc) (wrOp .cmd n :: .wait :: rest) :=
  (((h.operandWritten .inBase ib).operandWritten .inLen il).operandWritten .outBase ob).operandWritten .outCap oc

/-- The four operand writes are four steps. -/
theorem Ready.run_operands (h : Ready s (bufferOps ib il ob oc n ++ rest)) (k : Nat) :
    Sys2Proof.core.run (k + 4) s = Sys2Proof.core.run k (s.operandsWritten ib il ob oc) := by
  have h1 := h.operandWritten .inBase ib
  have h2 := h1.operandWritten .inLen il
  have h3 := h2.operandWritten .outBase ob
  rw [run_cons (h.step_operand (by decide)), run_cons (h1.step_operand (by decide)),
    run_cons (h2.step_operand (by decide)), run_cons (h3.step_operand (by decide)), State.operandsWritten]

/-- The four operand writes leave the range checks of R52, R56 and R57 passed. -/
theorem operandsWritten_accepted (hok : OperandsOk ib il ob oc)
    (hb : ∀ c : Snapshot, c.inLen.toNat = il →
      issueRefusal s.params.memBytes i c = bufferRefusal s.params.memBytes c bound)
    (hacc : Accepts s.params.memBytes ib il ob oc bound) :
    issueRefusal (s.operandsWritten ib il ob oc).params.memBytes i
      ((s.operandsWritten ib il ob oc).self.snapshot (encode i)) = none := by
  rw [operandsWritten_params, operandsWritten_snapshot, hb _ (toNat_imm hok.inLen), bufferRefusal_eq_none_iff_accepts,
    SnapshotAccepts]
  simpa only [toNat_imm hok.inBase, toNat_imm hok.inLen, toNat_imm hok.outBase, toNat_imm hok.outCap] using hacc

/-- The four operand writes leave the check against the other instances passed (R62). -/
theorem operandsWritten_unshared (hok : OperandsOk ib il ob oc) (hu : Instr.usesBuffers i = true)
    (hun : Unshared s ib il ob oc) :
    sharesBuffer ((s.operandsWritten ib il ob oc).self.snapshot (encode i)) (s.operandsWritten ib il ob oc).others =
      false := by
  have huses := (snapshot_usesBuffers (s.operandsWritten ib il ob oc).self i).trans hu
  rw [operandsWritten_others, sharesBuffer_eq_false_iff_unshared huses, operandsWritten_snapshot]
  simpa only [toNat_imm hok.inBase, toNat_imm hok.inLen, toNat_imm hok.outBase, toNat_imm hok.outCap] using hun

/-- R106, R130: what a command leaves that succeeds with the bytes `y` behind the four operand writes. -/
theorem operandsWritten_produced (hok : OperandsOk ib il ob oc) {y : List Byte} (hy : y.length ≤ oc)
    (hop : ∀ c : Snapshot, c.inBase.toNat = ib → c.inLen.toNat = il →
      operation i s c = ⟨.ok, some (BitVec.ofNat 32 y.length), outputFx c y⟩) :
    Produced s ((s.operandsWritten ib il ob oc).ranCommand i) i ob oc y := by
  have hob := toNat_imm hok.outBase
  have hoc := toNat_imm hok.outCap
  have hp := ranCommand_produced (s := s.operandsWritten ib il ob oc) (i := i)
    (by rw [operandsWritten_outCap, hoc]; exact hy)
    (by rw [operandsWritten_snapshot, operation_congr (operandsWritten_bytesAt ..),
      hop _ (toNat_imm hok.inBase) (toNat_imm hok.inLen)])
  rw [operandsWritten_outBase, operandsWritten_outCap, hob, hoc] at hp
  exact hp.of_eq (operandsWritten_buf ..) (operandsWritten_others ..) (operandsWritten_params ..)

/-- R79, R81, R82: seven steps of a command with both buffers, whose operands meet the issue conditions and which
succeeds with the bytes `y`. -/
theorem Ready.run_bufferOps (h : Ready s (bufferOps ib il ob oc n ++ rest)) (hn : BitVec.ofNat 32 n = encode i)
    (hu : Instr.usesBuffers i = true) (hok : OperandsOk ib il ob oc)
    (hb : ∀ c : Snapshot, c.inLen.toNat = il →
      issueRefusal s.params.memBytes i c = bufferRefusal s.params.memBytes c bound)
    (hacc : Accepts s.params.memBytes ib il ob oc bound) (hun : Unshared s ib il ob oc) {y : List Byte}
    (hy : y.length ≤ oc) (hop : ∀ c : Snapshot, c.inBase.toNat = ib → c.inLen.toNat = il →
      operation i s c = ⟨.ok, some (BitVec.ofNat 32 y.length), outputFx c y⟩) :
    ∃ t, Sys2Proof.core.run 7 s = .next t ∧ Ready t rest ∧ Produced s t i ob oc y := by
  have h4 := h.operandsWritten
  refine ⟨_, ?_, h4.ranCommand i, operandsWritten_produced hok hy hop⟩
  rw [h.run_operands 3]
  exact h4.run_command hn (operandsWritten_accepted hok hb hacc) (operandsWritten_unshared hok hu hun)

end

theorem cobsEncode_bytesAt_length_le (s : State) (ib il : Nat) :
    (cobsEncode (s.bytesAt ib il)).length ≤ encodedSizeBound il := by
  simpa [State.bytesAt] using cobsEncode_length_le (s.bytesAt ib il)

theorem length_le_of_cobsDecode_bytesAt {s : State} {ib il : Nat} {z : List Byte}
    (hz : cobsDecode (s.bytesAt ib il) = .ok z) : z.length ≤ decodedSizeBound il := by
  have hle := cobsDecode_length_le (s.bytesAt ib il)
  rw [hz] at hle
  simpa [State.bytesAt, Claims.output] using hle

/-- R106: what ENCODE with both buffers gives. -/
theorem operation_encode (s : State) (c : Snapshot) : operation (.encode true true) s c =
    ⟨.ok, some (BitVec.ofNat 32 (cobsEncode (s.bytesAt c.inBase.toNat c.inLen.toNat)).length),
      outputFx c (cobsEncode (s.bytesAt c.inBase.toNat c.inLen.toNat))⟩ := rfl

/-- R130: what DECODE of bytes that stand for `z` gives. -/
theorem operation_decode {s : State} {c : Snapshot} {z : List Byte}
    (hz : cobsDecode (s.bytesAt c.inBase.toNat c.inLen.toNat) = .ok z) :
    operation (.decode true true) s c = ⟨.ok, some (BitVec.ofNat 32 z.length), outputFx c z⟩ := by
  have hop : operation (.decode true true) s c = decodeOp s c := rfl
  rw [hop, decodeOp, hz]

section
variable {s : State} {ib il ob oc : Nat} {rest : List HostOp} (hok : OperandsOk ib il ob oc)
include hok

/-- R106: ENCODE's expansion. -/
theorem Ready.run_encode (h : Ready s ((HostStmt.encode ib il ob oc).expand ++ rest))
    (hacc : Accepts s.params.memBytes ib il ob oc (encodedSizeBound il)) (hun : Unshared s ib il ob oc) :
    ∃ t, Sys2Proof.core.run 7 s = .next t ∧ Ready t rest ∧
      Produced s t (.encode true true) ob oc (cobsEncode (s.bytesAt ib il)) := by
  have ⟨_, _, _, hcap⟩ := hacc
  refine Ready.run_bufferOps h (by decide) rfl hok (by rintro c rfl; rfl) hacc hun ?_ ?_
  · exact (cobsEncode_bytesAt_length_le s ib il).trans hcap
  · rintro c rfl rfl
    exact operation_encode s c

/-- R130: DECODE's expansion on bytes that decode to `z`. -/
theorem Ready.run_decode {z : List Byte} (h : Ready s ((HostStmt.decode ib il ob oc).expand ++ rest))
    (hacc : Accepts s.params.memBytes ib il ob oc (decodedSizeBound il)) (hun : Unshared s ib il ob oc)
    (hz : cobsDecode (s.bytesAt ib il) = .ok z) :
    ∃ t, Sys2Proof.core.run 7 s = .next t ∧ Ready t rest ∧ Produced s t (.decode true true) ob oc z := by
  have ⟨_, _, _, hcap⟩ := hacc
  refine Ready.run_bufferOps h (by decide) rfl hok (by rintro c rfl; rfl) hacc hun ?_ ?_
  · exact (length_le_of_cobsDecode_bytesAt hz).trans hcap
  · rintro c rfl rfl
    exact operation_decode hz

end

/-- Settles O55: the seven steps of the expansion. -/
theorem encodeExpansionEncodes : Obligations.EncodeExpansionEncodes := by
  intro s ib il ob oc rest he _ hs hh hwf hacc hun
  obtain ⟨t, hrun, ht, hp⟩ := Ready.run_encode (.of_immOk hwf) ⟨he, hs, hh⟩ hacc hun
  refine ⟨t, hrun, ht.host, ht.engine, hp.cmd, hp.status, hp.result, ?_, hp.outside, hp.others⟩
  rw [hp.result]
  exact hp.output

/-- Settles O56: the second expansion reads what the first one has written, which decodes to the input. -/
theorem encodeThenDecodeReturnsTheInput : Obligations.EncodeThenDecodeReturnsTheInput := by
  intro s ib il ob oc db dc rest he _ hs hh hwfE hwfD haccE hunE haccD hunD
  have hokE := OperandsOk.of_immOk hwfE
  obtain ⟨u, hrunE, hu, hpE⟩ := Ready.run_encode hokE ⟨he, hs, hh.trans (List.append_assoc ..)⟩ haccE hunE
  have hokD : OperandsOk ob (cobsEncode (s.bytesAt ib il)).length db dc := by
    obtain ⟨hob, -, hdb, hdc⟩ := OperandsOk.of_immOk hwfD
    obtain ⟨-, -, -, hcap⟩ := haccE
    exact ⟨hob, ((cobsEncode_bytesAt_length_le s ib il).trans hcap).trans hokE.outCap, hdb, hdc⟩
  have hz : cobsDecode (u.bytesAt ob (cobsEncode (s.bytesAt ib il)).length) = .ok (s.bytesAt ib il) := by
    rw [hpE.output, cobsDecode_cobsEncode]
  rw [← hpE.params] at haccD
  have hunD : Unshared u ob (cobsEncode (s.bytesAt ib il)).length db dc := by
    unfold Unshared
    rw [hpE.others]
    exact hunD
  obtain ⟨t, hrunD, ht, hpD⟩ := hu.run_decode hokD haccD hunD hz
  have hlen : (s.bytesAt ib il).length = il := bytesAt_length ..
  have hresult := hpD.result
  have houtput := hpD.output
  rw [hlen] at hresult houtput
  exact ⟨t, (run_add hrunE 7).trans hrunD, ht.host, ht.engine, hpD.status, hresult, houtput⟩

/-! ### The expansions of ENCBOUND and DECBOUND (R79) -/

/-- R62: a command that does not use its buffers owns no byte. -/
theorem sharesBuffer_of_not_usesBuffers {c : Snapshot} (h : c.usesBuffers = false) (others : List Codec) :
    sharesBuffer c others = false := by
  simp [sharesBuffer, protectedRanges_of_not_usesBuffers h]

section
variable {s : State} {i : Instr} {n w bound : Nat} {rest : List HostOp}

/-- R150, R153: four steps of a sizing command on an accepted operand. -/
theorem Ready.run_sizing (h : Ready s (wrOp .inLen n :: wrOp .cmd w :: .wait :: rest)) (hw : BitVec.ofNat 32 w = encode i)
    (hu : Instr.usesBuffers i = false) (hn : n ≤ 2 ^ 32 - 1) (hbound : bound ≤ 2 ^ 32 - 1)
    (hr : ∀ c : Snapshot, c.inLen.toNat = n → issueRefusal s.params.memBytes i c = none)
    (hop : ∀ (u : State) (c : Snapshot), c.inLen.toNat = n → operation i u c = sizingOp bound) :
    ∃ t, Sys2Proof.core.run 4 s = .next t ∧ t.self.host = rest ∧ t.self.engine = .idle ∧ t.self.status = 0#32 ∧
      t.self.result.toNat = bound ∧ t.buf = s.buf := by
  have h1 := h.operandWritten .inLen n
  have hlen : ((s.operandWritten .inLen n).self.snapshot (encode i)).inLen.toNat = n := toNat_imm hn
  have huses := (snapshot_usesBuffers (s.operandWritten .inLen n).self i).trans hu
  have hop := hop (s.operandWritten .inLen n) _ hlen
  have hrun := h1.run_command hw (hr _ hlen) (sharesBuffer_of_not_usesBuffers huses _)
  have hready := h1.ranCommand i
  refine ⟨_, (run_cons (h.step_operand (by decide)) 3).trans hrun, hready.host, hready.engine, ?_, ?_, ?_⟩
  · rw [ranCommand_status, statusDone_eq_zero, hop, sizingOp]
  · rw [ranCommand_result, hop, complete_result, sizingOp, drawWord_some, toNat_imm hbound]
  · rw [ranCommand_buf, hop, complete_buf_nil rfl, operandWritten_buf]

end

theorem decodedSizeBound_le (m : Nat) : decodedSizeBound m ≤ m := by
  unfold decodedSizeBound
  split <;> omega

/-- Settles O57: the four steps of both expansions; ENC_BOUND's issue check is the hypothesis on its bound (R152). -/
theorem boundExpansionsGiveTheBound : Obligations.BoundExpansionsGiveTheBound := by
  intro s n rest he _ hs hn
  refine ⟨fun hh hbound => ?_, fun hh => ?_⟩
  · refine Ready.run_sizing (i := .encBound false false) ⟨he, hs, hh⟩ (by decide) rfl hn hbound ?_ ?_
    · rintro c rfl
      exact if_neg (Nat.not_lt.2 hbound)
    · rintro u c rfl
      rfl
  · refine Ready.run_sizing (i := .decBound false false) ⟨he, hs, hh⟩ (by decide) rfl hn
      ((decodedSizeBound_le n).trans hn) (fun _ _ => rfl) ?_
    rintro u c rfl
    rfl

end Sys2Proof.Machine
end

/-! ## The blocks of an encoder output -/

section
namespace Sys2Proof.Machine

open Sys2Proof.Claims (blockBytes payload)

/-- Settles O14: the blocks of the encoder decode one by one to the payload. -/
theorem decodeOfEncodeIsThePayload : Obligations.DecodeOfEncodeIsThePayload := cobsDecode_cobsEncode

/-! ### A payload of one block -/

/-- Non-zero bytes that still fit the open block are copied there (R103). -/
theorem EncState.Holds.foldl_nonzero {e : EncState} {d l x : List Byte} (h : e.Holds d l) (hx : 0#8 ∉ x)
    (hlen : l.length + x.length ≤ 254) : (x.foldl EncState.byte e).Holds d (l ++ x) := by
  induction x generalizing e l with
  | nil => simpa using h
  | cons b x ih =>
    obtain ⟨hb, hx⟩ := List.ne_and_not_mem_of_not_mem_cons hx
    rw [List.length_cons] at hlen
    obtain ⟨-, -, -, lit⟩ := h.byte b
    simpa using ih (lit hb.symm (by omega)) hx (by simp; omega)

/-- R104: at most 254 non-zero bytes are one block, and no empty block follows it. -/
theorem cobsEncode_of_nonzero {x : List Byte} (hx : 0#8 ∉ x) (hlen : x.length ≤ 254) : cobsEncode x = blockBytes x :=
  (EncState.start_holds.foldl_nonzero hx (by simpa using hlen)).close

theorem zero_not_mem_replicate (n : Nat) {b : Byte} (hb : b ≠ 0#8) : 0#8 ∉ List.replicate n b := fun h =>
  hb (List.eq_of_mem_replicate h).symm

/-- Settles O9: short payloads evaluate, and 254 non-zero bytes are one block. -/
theorem encoderWorkedExamples : Obligations.EncoderWorkedExamples := by
  refine ⟨by decide, by decide, by decide, by decide, by decide, ?_⟩
  rw [cobsEncode_of_nonzero (zero_not_mem_replicate 254 (by decide)) List.length_replicate.le, blockBytes,
    List.length_replicate]

/-! ### The payload as blocks (R107) -/

/-- What a closed block adds to the payload (R12, R13). -/
def closedPayload (l : List Byte) : List Byte := l ++ if l.length < 254 then [0#8] else []

theorem payload_cons {ls : List (List Byte)} (h : ls ≠ []) (l : List Byte) :
    payload (l :: ls) = closedPayload l ++ payload ls := by
  obtain ⟨l', ls, rfl⟩ := List.exists_cons_of_ne_nil h
  rfl

/-- Closed blocks and the final block behind them. -/
theorem payload_concat (ls : List (List Byte)) (l : List Byte) :
    payload (ls ++ [l]) = ls.flatMap closedPayload ++ l := by
  induction ls with
  | nil => rfl
  | cons l' ls ih => rw [List.cons_append, payload_cons (by simp), ih, List.flatMap_cons, List.append_assoc]

/-- The literals of a legal block (R11): at most 254 bytes, none of them zero. -/
def Literals (l : List Byte) : Prop := l.length ≤ 254 ∧ 0#8 ∉ l

theorem Literals.nil : Literals [] := ⟨Nat.zero_le _, List.not_mem_nil⟩

theorem Literals.concat {l : List Byte} {b : Byte} (h : Literals l) (hlt : l.length < 254) (hb : b ≠ 0#8) :
    Literals (l ++ [b]) := by
  obtain ⟨-, hl⟩ := h
  exact ⟨by simp; omega, by simpa [hl] using hb.symm⟩

/-- The encoder holds the closed blocks `ls` and the open block `l`, and they stand for the payload `x` read so far. -/
structure EncState.HoldsBlocks (e : EncState) (ls : List (List Byte)) (l x : List Byte) : Prop where
  holds : e.Holds (ls.flatMap blockBytes) l
  closed : ∀ l' ∈ ls, Literals l'
  literals : Literals l
  payload : ls.flatMap closedPayload ++ l = x

theorem EncState.start_holdsBlocks : EncState.start.HoldsBlocks [] [] [] :=
  ⟨EncState.start_holds, by simp, .nil, rfl⟩

/-- R103: one byte more closes no block, the open one, or a full one and behind it an empty one. -/
theorem EncState.HoldsBlocks.byte {e : EncState} {ls : List (List Byte)} {l x : List Byte}
    (h : e.HoldsBlocks ls l x) (b : Byte) : ∃ ls' l', (e.byte b).HoldsBlocks ls' l' (x ++ [b]) := by
  obtain ⟨hh, hls, hl, rfl⟩ := h
  obtain ⟨zeroFull, zero, litFull, lit⟩ := hh.byte b
  have closed : ∀ l' ∈ ls ++ [l], Literals l' := by simpa [or_imp, forall_and, hl] using hls
  by_cases hb : b = 0#8 <;> by_cases h254 : l.length = 254
  · have closedTwice : ∀ l' ∈ ls ++ [l, []], Literals l' := by
      simpa [or_imp, forall_and, hl, Literals.nil] using hls
    refine ⟨ls ++ [l, []], [], ?_, closedTwice, .nil, by simp [closedPayload, h254, hb]⟩
    simpa [blockBytes, h254] using zeroFull hb h254
  · have hlt : l.length < 254 := lt_of_le_of_ne hl.1 h254
    refine ⟨ls ++ [l], [], ?_, closed, .nil, by simp [closedPayload, hlt, hb]⟩
    simpa [blockBytes] using zero hb h254
  · refine ⟨ls ++ [l], [b], ?_, closed, Literals.nil.concat (by simp) hb, by simp [closedPayload, h254]⟩
    simpa [blockBytes, h254] using litFull hb h254
  · exact ⟨ls, l ++ [b], lit hb h254, hls, hl.concat (lt_of_le_of_ne hl.1 h254) hb, by simp⟩

theorem EncState.HoldsBlocks.foldl {e : EncState} {ls : List (List Byte)} {l x : List Byte}
    (h : e.HoldsBlocks ls l x) (y : List Byte) : ∃ ls' l', (y.foldl EncState.byte e).HoldsBlocks ls' l' (x ++ y) := by
  induction y generalizing e ls l x with
  | nil => exact ⟨ls, l, by simpa using h⟩
  | cons b y ih =>
    obtain ⟨ls', l', h'⟩ := h.byte b
    simpa using ih h'

/-- R107: the final block is closed behind the others. -/
theorem cobsEncode_eq_blocks (x : List Byte) :
    ∃ ls ≠ [], cobsEncode x = ls.flatMap blockBytes ∧ payload ls = x ∧ ∀ l ∈ ls, Literals l := by
  obtain ⟨ls, l, hh, hls, hl, hx⟩ := EncState.start_holdsBlocks.foldl x
  refine ⟨ls ++ [l], by simp, ?_, (payload_concat ls l).trans hx, by simpa [or_imp, forall_and, hl] using hls⟩
  rw [cobsEncode, hh.close]
  simp [blockBytes]

theorem zero_not_mem_blockBytes {l : List Byte} (h : Literals l) : 0#8 ∉ blockBytes l :=
  List.not_mem_cons_of_ne_of_not_mem (code_ne_zero h.1).symm h.2

/-- R14 (c): the codes of legal blocks sum to the number of their bytes. -/
theorem sum_codes {ls : List (List Byte)} (h : ∀ l ∈ ls, Literals l) :
    (ls.map fun l => (BitVec.ofNat 8 (l.length + 1)).toNat).sum = (ls.flatMap blockBytes).length := by
  rw [List.length_flatMap]
  exact congrArg List.sum (List.map_congr_left fun l hl => toNat_code (h l hl).1)

/-- Settles O10: the blocks that the encoder has closed. -/
theorem encoderOutputIsBlocksOfThePayload : Obligations.EncoderOutputIsBlocksOfThePayload := by
  intro x
  obtain ⟨ls, hne, henc, hx, hls⟩ := cobsEncode_eq_blocks x
  rw [henc]
  refine ⟨fun hmem => ?_, ls, hne, rfl, hx, hls, sum_codes hls⟩
  obtain ⟨l, hl, h0⟩ := List.mem_flatMap.1 hmem
  exact zero_not_mem_blockBytes (hls l hl) h0

end Sys2Proof.Machine
end

/-! ## When the encoded length reaches its bound -/

section
namespace Sys2Proof.Machine

open Sys2Proof.Claims (firings)

/-- R108: a firing needs a full block before it and one byte behind it. -/
theorem firings_le (x : List Byte) : firings x ≤ (x.length - 1) / 254 := by
  obtain ⟨-, hF⟩ := cobsEncode_length x
  omega

/-- Settles O11: the count of cells and the count of firings. -/
theorem encodedLengthMeetsTheBound : Obligations.EncodedLengthMeetsTheBound := by
  intro x
  have hF := firings_le x
  exact ⟨(cobsEncode_length x).1, fun _ => hF, fun h0 => by simpa [h0] using hF, cobsEncode_length_le x⟩

/-- R109: the two formulas differ in the number of firings alone. -/
theorem cobsEncode_length_eq_bound_iff (x : List Byte) : (cobsEncode x).length = encodedSizeBound x.length ↔
    x.length = 0 ∨ firings x = (x.length - 1) / 254 := by
  obtain ⟨hlen, -⟩ := cobsEncode_length x
  have hF := firings_le x
  unfold encodedSizeBound
  split <;> omega

/-- Without a zero the payload runs on from block to block, and each further block costs one firing. -/
theorem foldl_countByte_of_nonzero {p : EncState × Nat} {d l x : List Byte} (h : p.1.Holds d l) (hl : l.length ≤ 254)
    (hx : 0#8 ∉ x) : (x.foldl countByte p).2 = p.2 + (l.length + x.length - 1) / 254 := by
  induction x generalizing p d l with
  | nil => simp; omega
  | cons b x ih =>
    obtain ⟨hb, hx⟩ := List.ne_and_not_mem_of_not_mem_cons hx
    obtain ⟨-, -, litFull, lit⟩ := h.byte b
    by_cases h254 : l.length = 254
    · rw [List.foldl_cons, ih (litFull hb.symm h254) (by simp) hx]
      simp [countByte, h.literals, h254]; omega
    · rw [List.foldl_cons, ih (lit hb.symm h254) (by simp; omega) hx]
      simp [countByte, h.literals, h254]

theorem firings_of_nonzero {x : List Byte} (hx : 0#8 ∉ x) : firings x = (x.length - 1) / 254 := by
  simpa [firings_eq] using foldl_countByte_of_nonzero (p := (EncState.start, 0)) EncState.start_holds (by simp) hx

/-- Zeros close empty blocks, which fire no test. -/
theorem foldl_countByte_of_zeros {p : EncState × Nat} {d : List Byte} (h : p.1.Holds d []) (n : Nat) :
    ((List.replicate n 0#8).foldl countByte p).2 = p.2 := by
  induction n generalizing p d with
  | zero => rfl
  | succ n ih =>
    obtain ⟨-, zero, -, -⟩ := h.byte 0#8
    rw [List.replicate_succ, List.foldl_cons, ih (zero rfl (by simp))]
    simp [countByte, h.literals]

theorem firings_of_zeros (n : Nat) : firings (List.replicate n 0#8) = 0 :=
  foldl_countByte_of_zeros (p := (EncState.start, 0)) EncState.start_holds n

/-- A zero before the payload closes an empty block, behind which the blocks are filled anew. -/
theorem firings_zero_cons_of_nonzero {x : List Byte} (hx : 0#8 ∉ x) : firings (0#8 :: x) = (x.length - 1) / 254 := by
  obtain ⟨-, zero, -, -⟩ := EncState.start_holds.byte 0#8
  have hx := foldl_countByte_of_nonzero (p := countByte (EncState.start, 0) 0#8) (zero rfl (by simp)) (by simp) hx
  simpa [firings_eq, countByte, EncState.start_holds.literals] using hx

/-- R109 as far as it holds (log 12): zeros reach the bound until it counts a second block. -/
theorem cobsEncode_zeros_length_eq_bound_iff (n : Nat) :
    (cobsEncode (List.replicate n 0#8)).length = encodedSizeBound n ↔ n ≤ 254 := by
  have h := cobsEncode_length_eq_bound_iff (List.replicate n 0#8)
  rw [List.length_replicate, firings_of_zeros] at h
  rw [h]; omega

/-- Settles O12: the bound is a matter of the firings, which each kind of payload fixes. -/
theorem encodedBoundIsReached : Obligations.EncodedBoundIsReached := by
  refine ⟨cobsEncode_length_eq_bound_iff, fun x hx => ?_, cobsEncode_zeros_length_eq_bound_iff, ?_⟩
  · exact (cobsEncode_length_eq_bound_iff x).2 (.inr (firings_of_nonzero hx))
  · rw [(cobsEncode_length _).1, firings_zero_cons_of_nonzero (zero_not_mem_replicate 254 (by decide)),
      List.length_cons, List.length_replicate]
    decide

/-- Refutes O13: 255 zeros are encoded in 256 bytes, one below the bound (log 12). -/
theorem not_everyAllZeroPayloadReachesTheBound : ¬ Obligations.EveryAllZeroPayloadReachesTheBound := fun h =>
  absurd ((cobsEncode_zeros_length_eq_bound_iff 255).1 (h 255)) (by decide)

end Sys2Proof.Machine
end

/-! ## The completion of ENCODE -/

section
namespace Sys2Proof.Machine

/-- R106, R130: the commit of a command that succeeds with the bytes `y`, in the registers and in BUF. -/
theorem complete_produced {s : State} {c : Snapshot} {r : OpResult} {y : List Byte} (hy : y.length ≤ c.outCap.toNat)
    (hr : r = ⟨.ok, some (BitVec.ofNat 32 y.length), outputFx c y⟩) :
    (s.complete c r).self.status = 0#32 ∧ (s.complete c r).self.result.toNat = y.length ∧
      (s.complete c r).bytesAt c.outBase.toNat y.length = y := by
  have hcap := c.outCap.isLt
  subst hr
  refine ⟨statusDone_eq_zero.2 rfl, ?_, (complete_bytesAt_output rfl le_rfl).trans List.take_length⟩
  rw [complete_result, drawWord_some, toNat_imm (by omega)]

/-- Settles O23: the commit of the encoding of the input bytes, which fits the output range. -/
theorem encodeCompletes : Obligations.EncodeCompletes := by
  intro s c he hacc
  have hr : issueRefusal s.params.memBytes (.encode true true) c = none := bufferRefusal_eq_none_iff_accepts.2 hacc
  have hexec := exec_busy he hr
  obtain ⟨-, -, -, hcap⟩ := hacc
  have hy := (cobsEncode_bytesAt_length_le s c.inBase.toNat c.inLen.toNat).trans hcap
  obtain ⟨hstatus, hresult, hbytes⟩ := complete_produced (s := s) hy (operation_encode s c)
  obtain ⟨honly, hidle, -, -, -, houtside⟩ := completionFrame _ s _ c he hexec
  exact ⟨_, hexec, honly, hidle, hstatus, hresult, hresult ▸ hy, by rw [hresult, hbytes], houtside rfl⟩

/-! ### An absent buffer (R101, R121) -/

theorem complete_invalidArgument (s : State) (c : Snapshot) : s.complete c invalidArgument = { s with
    draws := s.draws + 1
    self := { s.self with status := 1#32, result := Config.freeWord s.draws, engine := .idle } } := rfl

/-- R101, R121: a command whose operation is InvalidArgument and that has no issue checks is issued, and completes with
ERR = InvalidArgument and the next free value in RESULT. -/
theorem exec_absentBuffer {i : Instr} (hu : Instr.usesBuffers i = false)
    (hr : ∀ memBytes c, issueRefusal memBytes i c = none) (hop : ∀ s c, operation i s c = invalidArgument) (s : State) :
    (s.self.engine = .idle → exec i s = .next (Claims.Issued s (encode i))) ∧
      ∀ c, s.self.engine = .busy c → exec i s = .next { s with
        draws := s.draws + 1
        self := { s.self with status := 1#32, result := Config.freeWord s.draws, engine := .idle } } := by
  refine ⟨fun he => exec_idle_accepted he (hr _ _) ?_, fun c he => ?_⟩
  · exact sharesBuffer_of_not_usesBuffers ((snapshot_usesBuffers s.self i).trans hu) _
  · rw [exec_busy he (hr _ _), hop, complete_invalidArgument]

/-- Settles O24: without both buffers ENCODE has no check that can fail and reads nothing. -/
theorem encodeWithAbsentBufferIsInvalidArgument : Obligations.EncodeWithAbsentBufferIsInvalidArgument := by
  intro ip op d habsent
  refine ⟨Config.freeWord d, d + 1, fun s => ?_⟩
  obtain ⟨hissue, hcompletes⟩ := exec_absentBuffer (i := .encode ip op) habsent
    (fun _ _ => by simp [issueRefusal, habsent]) (fun _ _ => by simp [operation, habsent]) s
  refine ⟨hissue, ?_⟩
  rintro c he rfl
  exact hcompletes c he

end Sys2Proof.Machine
end

/-! ## What the decoder makes of other inputs -/

section
namespace Sys2Proof.Machine

open Sys2Proof.Claims (before)

/-- Settles O16: the decoder's bound, for an input that is not empty. -/
theorem decodedLengthMeetsTheBound : Obligations.DecodedLengthMeetsTheBound := by
  intro y hy
  have hbound : decodedSizeBound y.length = y.length - 1 := if_neg (by omega)
  exact ⟨hbound ▸ cobsDecode_length_le y, hbound⟩

/-! ### Re-encoding (R134) -/

/-- R127, R134: an empty block behind a full one adds nothing to the output. -/
theorem cobsDecode_fullBlock_emptyBlock {l : List Byte} (hl : 0#8 ∉ l) (hlen : l.length = 254) :
    cobsDecode (0xFF#8 :: (l ++ [0x01#8])) = .ok l := by
  have hempty : cobsDecode [0x01#8] = .ok [] := by decide
  rw [cobsDecode_block (by decide) hl (by simp [hlen]), hempty]
  simp [before]

/-- R134: an encoder output decodes to one payload only, the encoded one. -/
theorem cobsEncode_eq_iff_of_cobsDecode {y z : List Byte} (hz : cobsDecode y = .ok z) :
    cobsEncode z = y ↔ ∃ x, y = cobsEncode x := by
  refine ⟨fun h => ⟨z, h.symm⟩, ?_⟩
  rintro ⟨x, rfl⟩
  rw [cobsDecode_cobsEncode] at hz
  cases hz
  rfl

/-- Settles O17: 254 non-zero bytes are one full block, which decodes to them also with an empty block behind it. -/
theorem reencodingGivesBackEncoderOutputsOnly : Obligations.ReencodingGivesBackEncoderOutputsOnly := by
  have hnonzero : 0#8 ∉ List.replicate 254 0xAA#8 := zero_not_mem_replicate 254 (by decide)
  obtain ⟨-, -, -, -, -, henc⟩ := encoderWorkedExamples
  refine ⟨?_, cobsDecode_fullBlock_emptyBlock hnonzero List.length_replicate, henc,
    fun y z => cobsEncode_eq_iff_of_cobsDecode⟩
  rw [← henc, cobsDecode_cobsEncode]

/-! ### Bytes behind an input (R132, R135) -/

/-- R114, R127: behind an encoder output decoding goes on with the payload, and the implied zero of its last block. -/
theorem exists_decodesBefore_cobsEncode (x : List Byte) : ∃ p, DecodesBefore (cobsEncode x) p := by
  obtain ⟨d, l, p, hh, hd, hl, hlen, -⟩ := Encodes.start.foldl x
  rw [cobsEncode, hh.close]
  exact ⟨_, hd.block hl hlen⟩

/-- Settles O18: the delimiter is read as a code byte (R124). -/
theorem delimiterIsRejected : Obligations.DelimiterIsRejected := by
  intro x
  obtain ⟨p, hp⟩ := exists_decodesBefore_cobsEncode x
  exact ⟨p ++ [], by rw [hp _ (List.cons_ne_nil _ _), cobsDecode_zero, before]⟩

/-- R125: bytes behind the input change step 2 only where it runs out of input. -/
theorem copyLiterals_append (n : Nat) (rest z w : List Byte) :
    match copyLiterals n rest z with
    | .ok z' r => copyLiterals n (rest ++ w) z = .ok z' (r ++ w)
    | .err .zero p => copyLiterals n (rest ++ w) z = .err .zero p
    | .err .truncated _ => True := by
  induction n generalizing rest z with
  | zero => simp [copyLiterals]
  | succ n ih =>
    cases rest with
    | nil => simp [copyLiterals]
    | cons b rest =>
      by_cases hb : b = 0#8
      · simp [copyLiterals, hb]
      · simpa [copyLiterals, hb] using ih rest (z ++ [b])

/-- R132: every block before the failing zero is read as before, and so is the zero. -/
theorem decodeBlocks_append_of_zero {fuel : Nat} {y z p : List Byte} (h : decodeBlocks fuel y z = .err .zero p)
    (w : List Byte) : decodeBlocks fuel (y ++ w) z = .err .zero p := by
  induction fuel generalizing y z with
  | zero => cases h
  | succ fuel ih =>
    cases y with
    | nil => cases h
    | cons code rest =>
      have lits := copyLiterals_append (code.toNat - 1) rest z w
      by_cases hcode : code = 0#8
      · simpa [decodeBlocks, hcode] using h
      · simp only [decodeBlocks, List.cons_append, hcode, if_false] at h ⊢
        cases hread : copyLiterals (code.toNat - 1) rest z with
        | err e q =>
          simp only [hread] at h lits
          cases h
          rw [lits]
        | ok z' r =>
          simp only [hread] at h lits
          rw [lits]
          cases r with
          | nil => cases h
          | cons b bs => exact ih h

/-- Settles O19: the fuel of the longer input is enough for both. -/
theorem zeroErrorIgnoresWhatFollows : Obligations.ZeroErrorIgnoresWhatFollows := by
  intro y p w h
  rw [cobsDecode, ← decodeBlocks_fuel [] (show y.length ≤ (y ++ w).length by simp)] at h
  exact decodeBlocks_append_of_zero h w

end Sys2Proof.Machine
end

/-! ## The completion of DECODE -/

section
namespace Sys2Proof.Machine

/-- R131: what DECODE of malformed bytes gives. -/
theorem operation_decode_err {s : State} {c : Snapshot} {e : DataErr} {p : List Byte}
    (he : cobsDecode (s.bytesAt c.inBase.toNat c.inLen.toNat) = .err e p) :
    operation (.decode true true) s c = ⟨e.err, none, outputFx c []⟩ := by
  have hop : operation (.decode true true) s c = decodeOp s c := rfl
  rw [hop, decodeOp, he]

/-- R120: DECODE with both buffers on an accepted snapshot is one commit, in the frame of a completion. -/
theorem exec_decode_busy {s : State} {c : Snapshot} (he : s.self.engine = .busy c)
    (hacc : Claims.SnapshotAccepts s.params.memBytes c (decodedSizeBound c.inLen.toNat)) :
    exec (.decode true true) s = .next (s.complete c (operation (.decode true true) s c)) ∧
      Claims.KeepsOutside s (s.complete c (operation (.decode true true) s c)) c.outBase.toNat c.outCap.toNat := by
  have hr : issueRefusal s.params.memBytes (.decode true true) c = none := bufferRefusal_eq_none_iff_accepts.2 hacc
  exact ⟨exec_busy he hr, complete_keepsOutside s (operation_outfx_length_le hr s)⟩

/-- Settles O26: the commit of the decoded bytes, which fit the output range. -/
theorem decodeCompletes : Obligations.DecodeCompletes := by
  intro s c z he hacc hz
  obtain ⟨hexec, houtside⟩ := exec_decode_busy he hacc
  obtain ⟨-, -, -, hcap⟩ := hacc
  have hfits := (length_le_of_cobsDecode_bytesAt hz).trans hcap
  obtain ⟨hstatus, hresult, hbytes⟩ := complete_produced (s := s) hfits (operation_decode hz)
  exact ⟨_, hexec, rfl, rfl, hstatus, hresult, hfits, hbytes, houtside⟩

/-- Settles O27: the commit of the error's code, and of free values for the whole output range. -/
theorem decodeReportsDataErrors : Obligations.DecodeReportsDataErrors := by
  intro s c e p he hacc herr
  obtain ⟨hexec, houtside⟩ := exec_decode_busy he hacc
  refine ⟨_, hexec, rfl, rfl, ?_, houtside⟩
  rw [complete_status, operation_decode_err herr]
  cases e with
  | zero => rfl
  | truncated => rfl

/-- Settles O28: an empty input range meets every issue condition but the legal ranges, and decodes to nothing. -/
theorem decodeOfNothingSucceeds : Obligations.DecodeOfNothingSucceeds := by
  refine ⟨rfl, rfl, fun s c he hlen hin hout => ?_⟩
  have hlen0 : c.inLen.toNat = 0 := by simp [hlen]
  have hacc : Claims.SnapshotAccepts s.params.memBytes c (decodedSizeBound c.inLen.toNat) := by
    rw [Claims.SnapshotAccepts, hlen0]
    exact ⟨hin, hout, fun a ⟨hge, hlt⟩ => absurd hge (Nat.not_le.2 hlt), Nat.zero_le _⟩
  have hz : cobsDecode (s.bytesAt c.inBase.toNat c.inLen.toNat) = .ok [] := by rw [hlen0]; rfl
  obtain ⟨t, hexec, -, -, hstatus, hresult, -⟩ := decodeCompletes s c [] he hacc hz
  exact ⟨t, hexec, hstatus, BitVec.eq_of_toNat_eq hresult⟩

/-- Settles O25: without both buffers DECODE has no check that can fail and reads nothing. -/
theorem decodeWithAbsentBufferIsInvalidArgument : Obligations.DecodeWithAbsentBufferIsInvalidArgument := by
  intro ip op d habsent
  refine ⟨Config.freeWord d, d + 1, fun s => ?_⟩
  obtain ⟨hissue, hcompletes⟩ := exec_absentBuffer (i := .decode ip op) habsent
    (fun _ _ => by simp [issueRefusal, habsent]) (fun _ _ => by simp [operation, habsent]) s
  refine ⟨hissue, ?_⟩
  rintro c he rfl
  exact hcompletes c he

end Sys2Proof.Machine
end

/-! ## The sizing commands -/

section
namespace Sys2Proof.Machine

/-! ### The sizing functions (R151, R154) -/

@[simp] theorem encodedSizeBound_zero : encodedSizeBound 0 = 1 := rfl

/-- R151: the bound of a non-empty input, with the ceiling as a floor. -/
theorem encodedSizeBound_of_pos {n : Nat} (h : 1 ≤ n) : encodedSizeBound n = n + 1 + (n - 1) / 254 := by
  rw [encodedSizeBound, if_neg (by omega)]
  omega

/-- Settles O4: one definition for an empty input, and one quotient written in three ways for any other. -/
theorem encodedSizeBoundIsTheFormula : Obligations.EncodedSizeBoundIsTheFormula :=
  ⟨rfl, fun _ hn => ⟨if_neg (Nat.pos_iff_ne_zero.1 hn), encodedSizeBound_of_pos hn⟩⟩

/-- R155: the value 1 at 0 is below every other, and from 1 on the formula is a sum of monotone terms. -/
theorem encodedSizeBound_monotone : Monotone encodedSizeBound := by
  intro m n hmn
  obtain rfl | hn := Nat.eq_zero_or_pos n
  · rw [Nat.le_zero.1 hmn]
  · obtain rfl | hm := Nat.eq_zero_or_pos m
    · rw [encodedSizeBound_of_pos hn, encodedSizeBound_zero]
      omega
    · rw [encodedSizeBound_of_pos hm, encodedSizeBound_of_pos hn]
      have hquot : (m - 1) / 254 ≤ (n - 1) / 254 := Nat.div_le_div_right (Nat.sub_le_sub_right hmn 1)
      omega

/-- R154: with subtraction cut off at 0, the case 0 is no exception. -/
theorem decodedSizeBound_eq (m : Nat) : decodedSizeBound m = m - 1 := by
  cases m <;> rfl

/-- Settles O5: the quotient and the subtraction are monotone. -/
theorem sizingFunctionsAreMonotone : Obligations.SizingFunctionsAreMonotone := by
  refine ⟨fun _ _ hmn => encodedSizeBound_monotone hmn, fun m n hmn => ?_, decodedSizeBound_le⟩
  rw [decodedSizeBound_eq, decodedSizeBound_eq]
  exact Nat.sub_le_sub_right hmn 1

/-- R152: MAX_ENC_IN is the last operand whose bound fits in 32 bits. -/
theorem encodedSizeBound_le_iff (n : Nat) : encodedSizeBound n ≤ 2 ^ 32 - 1 ↔ n ≤ 0xFEFEFEFE := by
  obtain rfl | hn := Nat.eq_zero_or_pos n
  · decide
  · rw [encodedSizeBound_of_pos hn]
    omega

/-! ### Issue and completion (R150, R152, R153) -/

/-- R55: a word whose OP names a sizing command owns no byte; a word with a reserved bit owns none either. -/
theorem protectedRanges_of_cmdOp {c : Snapshot} {o : BitVec 2} (ho : cmdOp c.cmd = o)
    (hu : ∀ ip op, Instr.usesBuffers (opcodeMap o ip op) = false) : c.protectedRanges = [] := by
  subst ho
  apply protectedRanges_of_not_usesBuffers
  by_cases hres : cmdReserved c.cmd = 0#28
  · rw [usesBuffers_of_decodeWord (if_pos hres), hu]
  · rw [Snapshot.usesBuffers, decodeWord, if_neg hres]

/-- R152: the only check of ENC_BOUND's issue. -/
theorem issueRefusal_encBound_eq_none {memBytes : Nat} {ip op : Bool} {c : Snapshot}
    (h : encodedSizeBound c.inLen.toNat ≤ 2 ^ 32 - 1) : issueRefusal memBytes (.encBound ip op) c = none :=
  if_neg (Nat.not_lt.2 h)

theorem issueRefusal_encBound_eq_overflow {memBytes : Nat} {ip op : Bool} {c : Snapshot}
    (h : 2 ^ 32 - 1 < encodedSizeBound c.inLen.toNat) :
    issueRefusal memBytes (.encBound ip op) c = some .boundOverflow := if_pos h

/-- R81: a command that uses no buffers is issued when it passes its own checks, whatever the other codecs do. -/
theorem exec_idle_of_not_usesBuffers {i : Instr} {s : State} (hu : Instr.usesBuffers i = false)
    (he : s.self.engine = .idle) (hr : issueRefusal s.params.memBytes i (s.self.snapshot (encode i)) = none) :
    exec i s = .next (Claims.Issued s (encode i)) :=
  exec_idle_accepted he hr (sharesBuffer_of_not_usesBuffers ((snapshot_usesBuffers s.self i).trans hu) _)

/-- R81: a check of the command's own that fails gives the refusal its name. -/
theorem exec_idle_of_issueRefusal_eq_some {i : Instr} {s : State} {r : Refusal} (he : s.self.engine = .idle)
    (hr : issueRefusal s.params.memBytes i (s.self.snapshot (encode i)) = some r) : exec i s = .refused r := by
  rw [exec_idle he, issue]
  simp only [hr]

/-- R82, R150, R153: the commit of a sizing command, which writes no byte and makes no draw. -/
theorem complete_sizingOp (s : State) (c : Snapshot) (bound : Nat) : s.complete c (sizingOp bound) = { s with
    self := { s.self with status := 0#32, result := BitVec.ofNat 32 bound, engine := .idle } } := rfl

/-- Settles O6: the bound that fits passes the one check of the issue, and of the completion. -/
theorem encBoundIssuesAndCompletes : Obligations.EncBoundIssuesAndCompletes := by
  intro s ip op
  refine ⟨fun he hfits => ?_, fun c ho => protectedRanges_of_cmdOp ho fun _ _ => rfl, fun c he hfits => ?_⟩
  · exact exec_idle_of_not_usesBuffers rfl he (issueRefusal_encBound_eq_none hfits)
  · rw [exec_busy he (issueRefusal_encBound_eq_none hfits), operation, complete_sizingOp]

/-- R152: ENC_BOUND of an IDLE engine is refused for its bound or issued. -/
theorem exec_encBound_idle_eq_overflow_iff {s : State} (he : s.self.engine = .idle) (ip op : Bool) :
    exec (.encBound ip op) s = .refused .boundOverflow ↔ 2 ^ 32 - 1 < encodedSizeBound s.self.inLen.toNat := by
  constructor
  · intro hrefused
    by_contra hfits
    obtain ⟨hissue, -, -⟩ := encBoundIssuesAndCompletes s ip op
    cases (hissue he (Nat.not_lt.1 hfits)).symm.trans hrefused
  · exact fun hover => exec_idle_of_issueRefusal_eq_some he (issueRefusal_encBound_eq_overflow hover)

/-- Settles O7: the arithmetic of the bound, ENC_BOUND's one check, and ENCODE's capacity, which is a 32-bit value. -/
theorem encBoundOverflowIsRefused : Obligations.EncBoundOverflowIsRefused := by
  have hover (n : Nat) : 2 ^ 32 - 1 < encodedSizeBound n ↔ 0xFEFEFEFE < n :=
    lt_iff_lt_of_le_iff_le (encodedSizeBound_le_iff n)
  refine ⟨hover, by decide, by decide, fun s ip op he => ?_, fun memBytes c hacc => ?_⟩
  · exact (exec_encBound_idle_eq_overflow_iff he ip op).trans (hover _)
  · obtain ⟨-, -, -, hcap⟩ := hacc
    exact hcap.trans (Nat.le_pred_of_lt c.outCap.isLt)

/-- Settles O8: DEC_BOUND has no check, and its bound is at most the 32-bit IN_LEN. -/
theorem decBoundIssuesAndCompletes : Obligations.DecBoundIssuesAndCompletes := by
  intro s ip op
  refine ⟨fun he => ?_, fun c ho => protectedRanges_of_cmdOp ho fun _ _ => rfl, fun c he => ⟨?_, ?_⟩⟩
  · exact exec_idle_of_not_usesBuffers rfl he rfl
  · rw [exec_busy he rfl, operation, complete_sizingOp]
  · exact toNat_imm ((decodedSizeBound_le _).trans (Nat.le_pred_of_lt c.inLen.isLt))

end Sys2Proof.Machine
end

/-! ## No step faults -/

section
namespace Sys2Proof.Machine

/-! ### The agents cannot fault, in any state -/

/-- R170: the ENGINE's step is idle, a command, or a refusal. -/
theorem engineStep_not_fault (s : State) (r : Fault) : engineStep s ≠ .fault r := by
  unfold engineStep
  split
  · nofun
  · split
    · exact exec_not_fault _ s r
    · nofun

/-- R170: a register write is a command's issue, or it is taken or refused by itself. -/
theorem writeReg_not_fault (q : Reg) (v : Word) (s : State) (r : Fault) : writeReg q v s ≠ .fault r := by
  cases q with
  | cmd =>
    simp only [writeReg, writeCmd]
    split
    · nofun
    · split
      · exact exec_not_fault _ s r
      · nofun
  | status | result => nofun
  | inBase | inLen | outBase | outCap =>
    simp only [writeReg]
    split <;> nofun

/-- R170: of the HOST's accesses only a register write reaches a command. -/
theorem access_not_fault (op : HostOp) (s : State) (r : Fault) : access op s ≠ .fault r := by
  cases op with
  | regWrite width offset v =>
    simp only [access]
    split
    · exact writeReg_not_fault _ v s r
    · nofun
  | regRead width offset | memRead a | memWrite a b =>
    simp only [access]
    split <;> nofun
  | wait => nofun

/-- R170: the HOST's step is one access or none. -/
theorem hostStep_not_fault (s : State) (r : Fault) : hostStep s ≠ .fault r := by
  unfold hostStep
  split
  · nofun
  · split <;> exact access_not_fault .wait _ r
  · exact access_not_fault _ _ r

/-- The one step that can fault is a reset. -/
theorem reset1_of_step_fault {s : State} {r : Fault} (h : step s = .fault r) : s.popTurn.reset1 = .fault r := by
  unfold step takeTurn at h
  split at h
  · exact absurd h (hostStep_not_fault _ r)
  · exact absurd h (engineStep_not_fault _ r)
  · exact h
  · cases h

/-! ### Reset under the invariant -/

/-- R52, R191: a reset abandons no byte, or the output range of an accepted command, which lies in BUF. -/
theorem State.Inv.abandoned_legal {s : State} (h : s.Inv) :
    s.self.engine.abandoned.legal s.params.memBytes = true := by
  rw [← range_legal]
  cases he : s.self.engine with
  | idle => exact Nat.zero_le _
  | busy c =>
    cases hu : c.usesBuffers with
    | false => simp [Engine.abandoned, hu]
    | true =>
      obtain ⟨i, hi, hr⟩ := h.accepted he
      obtain ⟨bound, -, hout, -⟩ :=
        exists_accepts_of_issueRefusal_eq_none hr ((usesBuffers_of_decodeWord hi).symm.trans hu)
      rw [Engine.abandoned, if_pos hu]
      exact hout

theorem State.Inv.reset1_not_fault {s : State} (h : s.Inv) (r : Fault) : s.reset1 ≠ .fault r := by
  rw [State.reset1, if_pos h.abandoned_legal]
  nofun

/-- Settles O47: only a reset can fault, and the range it abandons was checked at issue. -/
theorem noStepFaults : Obligations.NoStepFaults := fun _ r h hfault =>
  h.popTurn.reset1_not_fault r (reset1_of_step_fault hfault)

end Sys2Proof.Machine
end

/-! ## The busy window (R194) -/

section
namespace Sys2Proof.Machine

theorem regValue_result_busy {s : State} {c : Snapshot} (h : s.self.engine = .busy c) :
    s.regValue .result = (Config.freeWord s.draws, s.draws + 1) := by
  simp [State.regValue, h]

/-- R194: CMD and the operand registers read their stored values while BUSY too. -/
theorem regValue_stored {r : Reg} (hr : r ∈ [Reg.cmd, .inBase, .inLen, .outBase, .outCap]) (s : State) :
    s.regValue r = (s.self.get r, s.draws) := by
  cases r with
  | cmd | inBase | inLen | outBase | outCap => simp [State.regValue]
  | status | result => simp at hr

/-- R194: a command cannot be issued while one is in flight, whatever its word. -/
theorem writeReg_cmd_busy {s : State} {c : Snapshot} (h : s.self.engine = .busy c) (v : Word) :
    writeReg .cmd v s = .refused .cmdWhileBusy := by
  simp [writeReg, writeCmd, h]

/-- R194: the operand registers are read-only while BUSY. -/
theorem writeReg_operand_busy {s : State} {c : Snapshot} (h : s.self.engine = .busy c) {r : Reg}
    (hr : r ∈ [Reg.inBase, .inLen, .outBase, .outCap]) (v : Word) :
    writeReg r v s = .refused .operandWriteWhileBusy := by
  cases r with
  | inBase | inLen | outBase | outCap => simp [writeReg, h]
  | cmd | status | result => simp at hr

/-- R58, R59: a byte that the codec in focus owns is out of its HOST's reach, inside BUF or past it. -/
theorem exists_byteRefusal_eq_some_of_protects {s : State} {a : Nat} (h : s.self.protects a = true) :
    ∃ r, s.byteRefusal a = some r := by
  obtain hle | hlt := le_or_gt s.params.memBytes a
  · exact ⟨_, byteRefusal_hostAddress hle⟩
  · exact ⟨_, byteRefusal_protectedByte hlt ⟨s.self, List.mem_cons_self, h⟩⟩

/-- R28: a read puts the register's value before what the HOST has seen, and changes nothing of the block. -/
theorem access_regRead_of_regValue {s : State} {r : Reg} {v : Word} {n : Nat} (h : s.regValue r = (v, n)) :
    access (.regRead 32 r.offset) s = .next
      { s with draws := n, self := { s.self with seen := .reg r v :: s.self.seen } } := by
  rw [access_regRead, State.readReg, h, State.see]

/-- Settles O36: each kind of access while BUSY, by its own law. -/
theorem busyWindow : Obligations.BusyWindow := by
  intro s c he
  refine ⟨fun v => ?_, fun v o ho => ?_, fun a b hp => ?_, ⟨Config.freeErr s.draws, s.draws + 1, ?_⟩,
    ⟨_, _, access_regRead_of_regValue (regValue_result_busy he)⟩,
    fun r hr => access_regRead_of_regValue (regValue_stored hr s), readOnlyRegistersIgnoreWrites s⟩
  · exact (access_regWrite .cmd v s).trans (writeReg_cmd_busy he v)
  · have hoffsets : [0x08, 0x0C, 0x10, 0x14] = [Reg.inBase, .inLen, .outBase, .outCap].map Reg.offset := rfl
    rw [hoffsets] at ho
    obtain ⟨r, hr, rfl⟩ := List.mem_map.1 ho
    rw [access_regWrite, writeReg_operand_busy he hr]
  · obtain ⟨r, hr⟩ := exists_byteRefusal_eq_some_of_protects hp
    obtain ⟨hread, hwrite⟩ := access_byte_refused hr b
    exact ⟨⟨r, hread⟩, r, hwrite⟩
  · rw [BitVec.or_comm]
    exact access_regRead_of_regValue (regValue_status_busy he)

end Sys2Proof.Machine
end

/-! ## Reset -/

section
namespace Sys2Proof.Machine

open Sys2Proof.Claims (InRange KeepsOutside)

/-- R190: every register of a codec that reset has reached reads 0. -/
theorem get_resetRegs (x : Codec) (r : Reg) : x.resetRegs.get r = 0#32 := by
  cases r <;> rfl

/-- R190, R191: what reset makes of the codec in focus, IDLE or BUSY. -/
theorem reset1_self {s t : State} (h : s.reset1 = .next t) : t.self = s.self.resetRegs := by
  obtain ⟨-, rfl⟩ := reset1_next h
  rfl

/-- R191: a reset that abandons a range of BUF, or no byte, is taken. -/
theorem exists_reset1_eq_next {s : State} (h : s.self.engine.abandoned.legal s.params.memBytes = true) :
    ∃ t, s.reset1 = .next t := ⟨_, if_pos h⟩

/-- R190: reset writes no byte of BUF when no command is abandoned, or one that uses no buffers. -/
theorem reset1_buf {s t : State} (h : s.reset1 = .next t) (hlen : s.self.engine.abandoned.len = 0) : t.buf = s.buf := by
  obtain ⟨-, rfl⟩ := reset1_next h
  simp [hlen, Memory.writeBytes]

/-- R150: ENC_BOUND of IN_LEN = 0, the command a codec accepts right after reset (R190). -/
theorem writeCmd_encBound_of_inLen_zero {s : State} (he : s.self.engine = .idle) (hl : s.self.inLen = 0) :
    ∃ u, writeCmd 0x00000002#32 s = .next u := by
  have hd : decodeWord 0x00000002#32 = .ok (.encBound false false) := rfl
  refine ⟨_, (access_writeCmd he hd).trans (exec_idle_of_not_usesBuffers rfl he (issueRefusal_encBound_eq_none ?_))⟩
  simp [hl]

/-- Settles O40: reset leaves the registers of `Codec.resetRegs`, in which ENC_BOUND of 0 is accepted. -/
theorem resetLeavesTheRegistersZero : Obligations.ResetLeavesTheRegistersZero := by
  refine ⟨⟨get_resetRegs Codec.afterReset, rfl, rfl⟩, fun s t h => ?_, fun s he => ?_⟩
  · have hself := reset1_self h
    refine ⟨fun r => ?_, reset1_engine h, (reset1_keepsFrame h).refused,
      writeCmd_encBound_of_inLen_zero (reset1_engine h) ?_⟩
    · rw [hself, get_resetRegs]
    · rw [hself, resetRegs_inLen]
  · have habandoned : s.self.engine.abandoned = ⟨0, 0⟩ := by rw [he, Engine.abandoned]
    obtain ⟨t, ht⟩ := exists_reset1_eq_next (s := s) (by rw [habandoned]; exact range_legal.1 (Nat.zero_le _))
    exact ⟨t, ht, reset1_buf ht (by rw [habandoned])⟩

/-- R191: reset keeps every byte outside the range it abandons. -/
theorem reset1_byteAt_outside {s t : State} (h : s.reset1 = .next t) {a : Nat}
    (ha : ¬ s.self.engine.abandoned.has a = true) : t.byteAt a = s.byteAt a := by
  obtain ⟨-, rfl⟩ := reset1_next h
  rw [range_has] at ha
  exact byteAt_writeBytes_outside (by rw [drawBytes_length, List.length_replicate]; omega)

/-- R191: a command in flight leaves its output range to any value, and only when it uses its buffers. -/
theorem abandoned_busy_has {c : Snapshot} {a : Nat} : (Engine.busy c).abandoned.has a = true ↔
    c.usesBuffers = true ∧ InRange c.outBase.toNat c.outCap.toNat a := by
  rw [Engine.abandoned]
  split
  · rename_i hu; rw [output_has, and_iff_right hu]
  · rename_i hu; simp [range_has, hu]

/-- R52: the abandoned range lies in BUF when the output range of a command that uses its buffers does. -/
theorem abandoned_busy_legal {c : Snapshot} {memBytes : Nat}
    (h : c.usesBuffers = true → c.outBase.toNat + c.outCap.toNat ≤ memBytes) :
    (Engine.busy c).abandoned.legal memBytes = true := by
  rw [Engine.abandoned, ← range_legal]
  split
  · rename_i hu; exact h hu
  · exact Nat.zero_le _

/-- Settles O41: reset writes the abandoned range only, which is the output range or empty. -/
theorem resetAbandonsTheCommand : Obligations.ResetAbandonsTheCommand := by
  intro s c he hlegal
  obtain ⟨t, ht⟩ := exists_reset1_eq_next (s := s) (by rw [he]; exact abandoned_busy_legal hlegal)
  obtain ⟨-, hreset, -⟩ := resetLeavesTheRegistersZero
  obtain ⟨hregs, hidle, hrefused, -⟩ := hreset s t ht
  have keeps : ∀ a, ¬ (c.usesBuffers = true ∧ InRange c.outBase.toNat c.outCap.toNat a) →
      t.byteAt a = s.byteAt a := fun a ha =>
    reset1_byteAt_outside ht (by rwa [he, abandoned_busy_has])
  have outside : KeepsOutside s t c.outBase.toNat c.outCap.toNat := fun a ha => keeps a fun h => ha h.2
  refine ⟨t, ht, hregs, hidle, hrefused, fun hu a => keeps a fun h => ?_, outside,
    fun hdisjoint a ha => outside a (hdisjoint a ha)⟩
  exact Bool.false_ne_true (hu.symm.trans h.1)

/-- Settles O59: reset replaces the codec in focus by its `Codec.resetRegs`, and BUF starts as the empty list. -/
theorem resetReachesOneInstance : Obligations.ResetReachesOneInstance := by
  refine ⟨fun s t h => ⟨(reset1_keepsFrame h).others, ?_, ?_⟩, fun _ => rfl⟩
  · rw [reset1_self h, resetRegs_host]
  · rw [reset1_self h, resetRegs_seen]

end Sys2Proof.Machine
end

/-! ## Every run ends -/

section
namespace Sys2Proof.Machine

/-! ### What a turn keeps of what is still to come -/

/-- What a command, an access and the ENGINE's step keep: the turns to come (log 3) and the accesses the HOST has still to
make (log 2). -/
structure KeepsAgenda (s t : State) : Prop where
  schedule : t.schedule = s.schedule
  host : t.self.host = s.self.host

theorem exec_keepsAgenda {i : Instr} {s t : State} (h : exec i s = .next t) : KeepsAgenda s t := by
  obtain ⟨-, -, -, rfl⟩ | ⟨c, -, -, rfl⟩ := exec_next h <;> exact ⟨rfl, rfl⟩

theorem engineStep_keepsAgenda {s t : State} (h : engineStep s = .next t) : KeepsAgenda s t := by
  obtain ⟨-, rfl⟩ | ⟨c, i, -, -, hx⟩ := engineStep_next h
  · exact ⟨rfl, rfl⟩
  · exact exec_keepsAgenda hx

theorem access_keepsAgenda {op : HostOp} {s t : State} (h : access op s = .next t) : KeepsAgenda s t := by
  obtain ⟨r, rfl⟩ | ⟨a, -, rfl⟩ | ⟨a, b, -, -, -, rfl⟩ | ⟨r, v, hw⟩ := access_next h
  · exact ⟨rfl, rfl⟩
  · exact ⟨rfl, rfl⟩
  · exact ⟨rfl, rfl⟩
  · obtain ⟨-, -, i, -, hx⟩ | rfl | ⟨-, rfl⟩ := writeReg_next hw
    · exact exec_keepsAgenda hx
    · exact ⟨rfl, rfl⟩
    · exact ⟨rfl, setOperand_host ..⟩

theorem hostStep_schedule {s t : State} (h : hostStep s = .next t) : t.schedule = s.schedule := by
  obtain ⟨-, rfl⟩ | rfl | ⟨op, rest, -, ha⟩ := hostStep_next h
  · rfl
  · rfl
  · exact (access_keepsAgenda ha).schedule

theorem reset1_schedule {s t : State} (h : s.reset1 = .next t) : t.schedule = s.schedule := by
  obtain ⟨-, rfl⟩ := reset1_next h
  rfl

/-- A step uses up one scheduled turn and schedules none. -/
theorem step_schedule {s t : State} (h : step s = .next t) : t.schedule = s.schedule.tail := by
  obtain hx | hx | hx | ⟨k, rfl⟩ := step_next h
  · exact hostStep_schedule hx
  · exact (engineStep_keepsAgenda hx).schedule
  · exact reset1_schedule hx
  · exact focus_schedule ..

/-! ### The work that is left -/

/-- The turns a codec needs once no turn is scheduled: one for a command in flight, two for each access of its HOST,
since an access can put a command in flight. -/
def Codec.work (x : Codec) : Nat := 2 * x.host.length + x.engine.isBusy.toNat

/-- The work of all codecs. -/
def State.work (s : State) : Nat := ((s.self :: s.others).map Codec.work).sum

/-- A bound on the steps to the end of the run: each turn may first need a change of focus. -/
def State.stepsLeft (s : State) : Nat := 2 * s.work + (!s.self.hasWork).toNat

theorem State.work_eq (s : State) : s.work = s.self.work + (s.others.map Codec.work).sum := by
  simp [State.work]

theorem focus_work (s : State) (k : Nat) : (s.focus k).work = s.work := ((focus_perm s k).map Codec.work).sum_eq

/-- A turn that takes work from the codec in focus brings the end nearer, whether any work is left to it or not. -/
theorem stepsLeft_lt_of_work_lt {s t : State} (h : t.work < s.work) : t.stepsLeft < s.stepsLeft := by
  have := Bool.toNat_le (!t.self.hasWork)
  unfold State.stepsLeft
  omega

theorem work_lt_of_self {s t : State} (hf : KeepsFrame s t) (h : t.self.work < s.self.work) : t.work < s.work := by
  rw [State.work_eq, State.work_eq, hf.others]
  omega

/-- R82: the completion of a command in flight is its last turn. -/
theorem engineStep_work_lt {s t : State} {c : Snapshot} (he : s.self.engine = .busy c) (h : engineStep s = .next t) :
    t.work < s.work := by
  refine work_lt_of_self (engineStep_keepsFrame h) ?_
  obtain ⟨hidle, -⟩ | ⟨_, i, -, -, hx⟩ := engineStep_next h
  · rw [he] at hidle; cases hidle
  · obtain ⟨-, rfl⟩ := exec_next_busy he hx
    simp [Codec.work, he]

/-- R78: with STATUS.BUSY reading 0 the HOST makes its next access, a `WAIT` included. -/
theorem hostStep_access {s : State} {op : HostOp} {rest : List HostOp} (hh : s.self.host = op :: rest)
    (hb : statusBusy (s.regValue .status).1 = false) : hostStep s = access op s.popHost := by
  by_cases hop : op = .wait
  · subst hop; exact hostStep_wait_ends hh hb
  · exact hostStep_cons hh hop

/-- R30: under the invariant STATUS.BUSY reads 0 while IDLE. -/
theorem State.Inv.statusBusy_idle {s : State} (h : s.Inv) (he : s.self.engine = .idle) :
    statusBusy (s.regValue .status).1 = false := by
  obtain ⟨-, -, hbusy, -⟩ := h.self_ok
  rw [regValue_idle he]
  exact hbusy.trans (by rw [he, isBusy_idle])

/-- While IDLE an access is used up, and puts at most one command in flight. -/
theorem State.Inv.hostStep_work_lt {s t : State} (hinv : s.Inv) (he : s.self.engine = .idle) (hh : s.self.host ≠ [])
    (h : Machine.hostStep s = .next t) : t.work < s.work := by
  obtain ⟨op, rest, hops⟩ := List.exists_cons_of_ne_nil hh
  refine work_lt_of_self (hostStep_keepsFrame h) ?_
  rw [hostStep_access hops (hinv.statusBusy_idle he)] at h
  have hrest : t.self.host = rest := by rw [(access_keepsAgenda h).host, popHost_host, hops, List.tail_cons]
  have hbusy := Bool.toNat_le t.self.engine.isBusy
  simp only [Codec.work, hrest, hops, List.length_cons]
  omega

/-- R201: when the codec in focus is done and the run has not ended, another codec has work. -/
theorem exists_other_hasWork {s : State} (hdone : s.self.done = true) (hend : s.ended = false) :
    ∃ k, s.others.findIdx? Codec.hasWork = some k := by
  refine Option.ne_none_iff_exists'.1 fun hnone => ?_
  have hothers : s.others.all Codec.done = true :=
    List.all_eq_true.2 fun x hx => done_eq_true.2 (List.findIdx?_eq_none_iff.1 hnone x hx)
  rw [State.ended, hdone, hothers] at hend
  cases hend

/-- A change of focus from a codec that is done to one with work keeps the work and saves that change. -/
theorem focus_stepsLeft_lt {s : State} {k : Nat} (hdone : s.self.done = true)
    (hk : s.others.findIdx? Codec.hasWork = some k) : (s.focus k).stepsLeft < s.stepsLeft := by
  obtain ⟨hlt, hwork, -⟩ := List.findIdx?_eq_some_iff_getElem.1 hk
  have hself : (s.focus k).self.hasWork = true := by rw [focus_some (List.getElem?_eq_getElem hlt), hwork]
  simp [State.stepsLeft, focus_work, hself, done_eq_true.1 hdone]

/-- Without a schedule each step of a run that has not ended brings its end nearer (log 3). -/
theorem State.Inv.step_stepsLeft_lt {s t : State} (hinv : s.Inv) (hs : s.schedule = []) (hend : s.ended = false)
    (h : step s = .next t) : t.stepsLeft < s.stepsLeft := by
  cases he : s.self.engine with
  | busy c =>
    rw [step_unscheduled hs (nextTurn_busy hs he)] at h
    exact stepsLeft_lt_of_work_lt (engineStep_work_lt he h)
  | idle =>
    by_cases hh : s.self.host = []
    · have hdone : s.self.done = true := done_eq_true.2 (hasWork_eq_false.2 ⟨he, hh⟩)
      obtain ⟨k, hk⟩ := exists_other_hasWork hdone hend
      rw [step_unscheduled hs (nextTurn_done hs hdone hk)] at h
      cases h
      exact focus_stepsLeft_lt hdone hk
    · rw [step_unscheduled hs (nextTurn_idle hs he hh)] at h
      exact stepsLeft_lt_of_work_lt (hinv.hostStep_work_lt he hh h)

/-! ### Runs that end -/

/-- R201: the run from `s` ends, or stops in a refusal, after finitely many steps. -/
def RunEnds (s : State) : Prop :=
  ∃ k, (∃ t, Host.Core.run Sys2Proof.core k s = .next t ∧ t.ended = true) ∨
    ∃ r, Host.Core.run Sys2Proof.core k s = .refused r

theorem RunEnds.of_ended {s : State} (h : s.ended = true) : RunEnds s := ⟨0, .inl ⟨s, rfl, h⟩⟩

/-- A refused step is the end of the run. -/
theorem RunEnds.of_refused {s : State} {r : Refusal} (h : step s = .refused r) : RunEnds s := by
  have hstep : Sys2Proof.core.step s = .refused r := h
  exact ⟨1, .inr ⟨r, by simp only [Host.Core.run, hstep]⟩⟩

theorem RunEnds.of_next {s t : State} (h : step s = .next t) (ht : RunEnds t) : RunEnds s := by
  obtain ⟨k, hk⟩ := ht
  rw [← run_cons h k] at hk
  exact ⟨k + 1, hk⟩

/-- Under the invariant no step faults, so a run ends when every next state's run does. -/
theorem State.Inv.runEnds_of_next {s : State} (hinv : s.Inv) (h : ∀ t, step s = .next t → t.Inv → RunEnds t) :
    RunEnds s := by
  cases hstep : step s with
  | next t => exact .of_next hstep (h t hstep (everyStepKeepsTheInvariant s t hinv hstep))
  | fault r => exact absurd hstep (noStepFaults s r hinv)
  | refused r => exact .of_refused hstep

/-- Without a schedule the steps left decrease to the end of the run. -/
theorem State.Inv.runEnds_unscheduled {s : State} (hinv : s.Inv) (hs : s.schedule = []) : RunEnds s := by
  induction hn : s.stepsLeft using Nat.strong_induction_on generalizing s with
  | _ n ih =>
    subst hn
    cases hend : s.ended with
    | true => exact .of_ended hend
    | false =>
      refine hinv.runEnds_of_next fun t hstep ht => ih _ (hinv.step_stepsLeft_lt hs hend hstep) ht ?_ rfl
      rw [step_schedule hstep, hs, List.tail_nil]

/-- Settles O49: the scheduled turns are used up one by one, and after them the steps left decrease. -/
theorem everyRunEnds : Obligations.EveryRunEnds := by
  intro s hinv
  induction hs : s.schedule generalizing s with
  | nil => exact hinv.runEnds_unscheduled hs
  | cons u us ih =>
    exact hinv.runEnds_of_next fun t hstep ht => ih t ht (by rw [step_schedule hstep, hs, List.tail_cons])

end Sys2Proof.Machine
end
